-- ==== Sys2Proof/Word.lean ====
section
/-! DEFINITION. The value types of the engine: a byte, a 32-bit register or address, the table ROM's contents
(spec 00_scope R8, R9; 10_state R15, R22). -/

namespace Sys2Proof

/-- A byte: 8 bits (R8). The remainder, a table entry and a buffer byte are bytes. -/
abbrev Byte := BitVec 8

/-- A register of the host interface: `REG_W` = 32 bits (R7). -/
abbrev Word32 := BitVec 32

/-- A host-memory byte address: `ADDR_W` = 32 bits (R7). -/
abbrev Addr := BitVec 32

/-- The contents of the table ROM: 256 entries of 8 bits (R22). -/
abbrev Table := Vector Byte 256

end Sys2Proof
end

