-- ==== Sys2Proof/Syntax.lean ====
section
/-! DEFINITION. The syntax: one constructor per row of spec/opcode_table.json, in its three formats
(spec 30_encoding R63 to R70). -/

namespace Sys2Proof

/-- The 14 host register accesses of format B, the 2 commands of format C and the 3 micro-operations of format U.
An operand the spec calls ignored is kept where the spec lists it as an operand (a write's `v`) and left out where
the spec lists no operand (a read's DATA, NOP's BUFV). -/
inductive Instr where
  /-- RD_CTRL (40 R76). -/
  | rdCtrl
  /-- WR_CTRL (40 R89): `c` is the format-C command word. -/
  | wrCtrl (c : Word32)
  /-- RD_STATUS (40 R77). -/
  | rdStatus
  /-- WR_STATUS (40 R87). -/
  | wrStatus (v : Word32)
  /-- RD_BASE (40 R78). -/
  | rdBase
  /-- WR_BASE (40 R84). -/
  | wrBase (v : Word32)
  /-- RD_SIZE (40 R79). -/
  | rdSize
  /-- WR_SIZE (40 R85). -/
  | wrSize (v : Word32)
  /-- RD_LEN (40 R80). -/
  | rdLen
  /-- WR_LEN (40 R86). -/
  | wrLen (v : Word32)
  /-- RD_RESULT (40 R81). -/
  | rdResult
  /-- WR_RESULT (40 R87). -/
  | wrResult (v : Word32)
  /-- RD_RSV (40 R82): `off` is 0x18 or 0x1C (WellFormed). -/
  | rdRsv (off : BitVec 5)
  /-- WR_RSV (40 R88): `off` is 0x18 or 0x1C (WellFormed). -/
  | wrRsv (off : BitVec 5) (v : Word32)
  /-- NOP (40 R90). -/
  | nop
  /-- COMPUTE (40 R92): `bufv` is CTRL.BUFV, a buffer reference is present. -/
  | compute (bufv : Bool)
  /-- INIT (41 R101). -/
  | init
  /-- UPDATE (41 R102): `b` is the buffer byte that FETCH read, carried as the U word's DATA. -/
  | update (b : Byte)
  /-- FINISH (41 R103). -/
  | finish
  deriving DecidableEq, Repr

/-- The instruction's name in spec/opcode_table.json. -/
def Instr.mnemonic : Instr → String
  | .rdCtrl => "RD_CTRL"
  | .wrCtrl _ => "WR_CTRL"
  | .rdStatus => "RD_STATUS"
  | .wrStatus _ => "WR_STATUS"
  | .rdBase => "RD_BASE"
  | .wrBase _ => "WR_BASE"
  | .rdSize => "RD_SIZE"
  | .wrSize _ => "WR_SIZE"
  | .rdLen => "RD_LEN"
  | .wrLen _ => "WR_LEN"
  | .rdResult => "RD_RESULT"
  | .wrResult _ => "WR_RESULT"
  | .rdRsv _ => "RD_RSV"
  | .wrRsv _ _ => "WR_RSV"
  | .nop => "NOP"
  | .compute _ => "COMPUTE"
  | .init => "INIT"
  | .update _ => "UPDATE"
  | .finish => "FINISH"

end Sys2Proof
end

