-- ==== Sys2Proof/WellFormed.lean ====
section
/-! DEFINITION. Which instructions the encodings of the spec can spell (spec 30_encoding R68). Every other operand
is held to its width by its type. -/

namespace Sys2Proof

/-- The two reserved offsets of the register window (10_state R35). -/
def isReservedOffset (off : BitVec 5) : Bool := off == 0x18#5 || off == 0x1C#5

/-- RD_RSV and WR_RSV stand only for the reserved offsets 0x18 and 0x1C (30 R68). -/
def Instr.wf : Instr → Bool
  | .rdRsv off => isReservedOffset off
  | .wrRsv off _ => isReservedOffset off
  | .rdCtrl | .wrCtrl _ | .rdStatus | .wrStatus _ | .rdBase | .wrBase _ | .rdSize | .wrSize _ => true
  | .rdLen | .wrLen _ | .rdResult | .wrResult _ | .nop | .compute _ | .init | .update _ | .finish => true

end Sys2Proof
end

