-- ==== Sys2Proof/Decode.lean ====
section
/-! DEFINITION. The three encodings: decoders from words to instructions, total, rejecting by name; the encoder; and
the opcode table's rows (spec 30_encoding R63 to R72). The context selects the format (R66): a host bus access is a B
word, the DATA of a write to CTRL is a C word, a pipeline step is a U word. -/

namespace Sys2Proof

/-- A word of one of the three formats, each of one fixed length (R66). -/
inductive EncWord where
  /-- Format B: the bus access word (R63). -/
  | busAccess (w : BitVec 38)
  /-- Format C: the command word (R64). -/
  | command (w : BitVec 32)
  /-- Format U: the micro-operation word (R65). -/
  | microOp (w : BitVec 10)
  deriving DecidableEq, Repr

/-- Why a word stands for no instruction (R71). -/
inductive DecodeError where
  /-- Format B with `OFF[1:0] != 0b00` (R71 item 4). -/
  | misalignedAccess
  /-- Format C with OP = 0x2..0xF (R71 item 1). As the DATA of a write to CTRL it is a command that does nothing. -/
  | reservedCommand
  /-- Format U with UOP = 0b11, or INIT or FINISH with DATA != 0x00 (R71 item 5). -/
  | reservedMicroOp
  deriving DecidableEq, Repr

/-- Format B's W, bit 37 (R63). -/
def busW (w : BitVec 38) : Bool := w.getLsbD 37

/-- Format B's OFF, bits 36:32 (R63). -/
def busOff (w : BitVec 38) : BitVec 5 := w.extractLsb' 32 5

/-- Format B's DATA, bits 31:0 (R63). -/
def busData (w : BitVec 38) : Word32 := w.extractLsb' 0 32

/-- Format C's OP, bits 3:0 (R64). -/
def cmdOp (c : BitVec 32) : BitVec 4 := c.extractLsb' 0 4

/-- Format C's BUFV, bit 8 (R64). -/
def cmdBufv (c : BitVec 32) : Bool := c.getLsbD 8

/-- Format U's UOP, bits 9:8 (R65). -/
def microUop (w : BitVec 10) : BitVec 2 := w.extractLsb' 8 2

/-- Format U's DATA, bits 7:0 (R65). -/
def microData (w : BitVec 10) : Byte := w.extractLsb' 0 8

/-- The read of the window's offset `off` (R68, the rows with W = 0). -/
def decodeRead (off : BitVec 5) : Except DecodeError Instr :=
  match off.toNat with
  | 0x00 => .ok .rdCtrl
  | 0x04 => .ok .rdStatus
  | 0x08 => .ok .rdBase
  | 0x0C => .ok .rdSize
  | 0x10 => .ok .rdLen
  | 0x14 => .ok .rdResult
  | 0x18 => .ok (.rdRsv off)
  | 0x1C => .ok (.rdRsv off)
  | _ => .error .misalignedAccess

/-- The write of `v` to the window's offset `off` (R68, the rows with W = 1). -/
def decodeWrite (off : BitVec 5) (v : Word32) : Except DecodeError Instr :=
  match off.toNat with
  | 0x00 => .ok (.wrCtrl v)
  | 0x04 => .ok (.wrStatus v)
  | 0x08 => .ok (.wrBase v)
  | 0x0C => .ok (.wrSize v)
  | 0x10 => .ok (.wrLen v)
  | 0x14 => .ok (.wrResult v)
  | 0x18 => .ok (.wrRsv off v)
  | 0x1C => .ok (.wrRsv off v)
  | _ => .error .misalignedAccess

/-- Format B decodes by W and OFF; DATA is not decoded (R68). -/
def decodeBus (w : BitVec 38) : Except DecodeError Instr :=
  if busW w then decodeWrite (busOff w) (busData w) else decodeRead (busOff w)

/-- Format C decodes by OP; BUFV is an operand of COMPUTE, and the reserved bits are ignored (R69). -/
def decodeCommand (c : BitVec 32) : Except DecodeError Instr :=
  match (cmdOp c).toNat with
  | 0x0 => .ok .nop
  | 0x1 => .ok (.compute (cmdBufv c))
  | _ => .error .reservedCommand

/-- Format U decodes by UOP; INIT and FINISH also require DATA = 0x00 (R70). -/
def decodeMicro (w : BitVec 10) : Except DecodeError Instr :=
  match (microUop w).toNat with
  | 0b00 => if microData w = 0x00#8 then .ok .init else .error .reservedMicroOp
  | 0b01 => .ok (.update (microData w))
  | 0b10 => if microData w = 0x00#8 then .ok .finish else .error .reservedMicroOp
  | _ => .error .reservedMicroOp

/-- The decoder of a word in its context (R66). -/
def decode : EncWord → Except DecodeError Instr
  | .busAccess w => decodeBus w
  | .command w => decodeCommand w
  | .microOp w => decodeMicro w

/-- The B word with fields W, OFF and DATA at bits 37, 36:32 and 31:0 (R63). -/
def busWord (w : Bool) (off : BitVec 5) (v : Word32) : BitVec 38 :=
  ((BitVec.ofBool w).setWidth 38 <<< 37) ||| (off.setWidth 38 <<< 32) ||| v.setWidth 38

/-- The B word of a read of `off`: W = 0, and DATA written as 0 (R63). -/
def readWord (off : BitVec 5) : BitVec 38 := busWord false off 0#32

/-- The B word of a write of `v` to `off`: W = 1 (R63). -/
def writeWord (off : BitVec 5) (v : Word32) : BitVec 38 := busWord true off v

/-- The C word of a command, BUFV at bit 8 and OP at bits 3:0, its reserved bits written as 0 (R64). -/
def commandWord (bufv : Bool) (op : BitVec 4) : BitVec 32 :=
  ((BitVec.ofBool bufv).setWidth 32 <<< 8) ||| op.setWidth 32

/-- The U word of a micro-operation, UOP at bits 9:8 and DATA at bits 7:0 (R65). -/
def microWord (uop : BitVec 2) (b : Byte) : BitVec 10 := (uop.setWidth 10 <<< 8) ||| b.setWidth 10

/-- The encoder, from the tables of R68 to R70. Bits the hardware ignores are written as 0. -/
def encode : Instr → EncWord
  | .rdCtrl => .busAccess (readWord 0x00#5)
  | .wrCtrl c => .busAccess (writeWord 0x00#5 c)
  | .rdStatus => .busAccess (readWord 0x04#5)
  | .wrStatus v => .busAccess (writeWord 0x04#5 v)
  | .rdBase => .busAccess (readWord 0x08#5)
  | .wrBase v => .busAccess (writeWord 0x08#5 v)
  | .rdSize => .busAccess (readWord 0x0C#5)
  | .wrSize v => .busAccess (writeWord 0x0C#5 v)
  | .rdLen => .busAccess (readWord 0x10#5)
  | .wrLen v => .busAccess (writeWord 0x10#5 v)
  | .rdResult => .busAccess (readWord 0x14#5)
  | .wrResult v => .busAccess (writeWord 0x14#5 v)
  | .rdRsv off => .busAccess (readWord off)
  | .wrRsv off v => .busAccess (writeWord off v)
  | .nop => .command (commandWord false 0x0#4)
  | .compute bufv => .command (commandWord bufv 0x1#4)
  | .init => .microOp (microWord 0b00#2 0x00#8)
  | .update b => .microOp (microWord 0b01#2 b)
  | .finish => .microOp (microWord 0b10#2 0x00#8)

/-- The format of a word, by its length in bits (R66). -/
def EncWord.width : EncWord → Nat
  | .busAccess _ => 38
  | .command _ => 32
  | .microOp _ => 10

/-- The word as a number, bit 0 the least significant bit (00_scope R8). -/
def EncWord.value : EncWord → Nat
  | .busAccess w => w.toNat
  | .command w => w.toNat
  | .microOp w => w.toNat

/-- One row of the opcode map (R68 to R70). -/
structure OpRow where
  mnemonic : String
  width : Nat
  mask : Nat
  pattern : Nat
  deriving DecidableEq, Repr

/-- The rows of format B (R68). -/
def busRows : List OpRow :=
  [⟨"RD_CTRL", 38, 0x3F00000000, 0x0000000000⟩, ⟨"WR_CTRL", 38, 0x3F00000000, 0x2000000000⟩,
   ⟨"RD_STATUS", 38, 0x3F00000000, 0x0400000000⟩, ⟨"WR_STATUS", 38, 0x3F00000000, 0x2400000000⟩,
   ⟨"RD_BASE", 38, 0x3F00000000, 0x0800000000⟩, ⟨"WR_BASE", 38, 0x3F00000000, 0x2800000000⟩,
   ⟨"RD_SIZE", 38, 0x3F00000000, 0x0C00000000⟩, ⟨"WR_SIZE", 38, 0x3F00000000, 0x2C00000000⟩,
   ⟨"RD_LEN", 38, 0x3F00000000, 0x1000000000⟩, ⟨"WR_LEN", 38, 0x3F00000000, 0x3000000000⟩,
   ⟨"RD_RESULT", 38, 0x3F00000000, 0x1400000000⟩, ⟨"WR_RESULT", 38, 0x3F00000000, 0x3400000000⟩,
   ⟨"RD_RSV", 38, 0x3B00000000, 0x1800000000⟩, ⟨"WR_RSV", 38, 0x3B00000000, 0x3800000000⟩]

/-- The rows of formats C and U (R69, R70). -/
def commandRows : List OpRow :=
  [⟨"NOP", 32, 0x0000000F, 0x00000000⟩, ⟨"COMPUTE", 32, 0x0000000F, 0x00000001⟩,
   ⟨"INIT", 10, 0x3FF, 0x000⟩, ⟨"UPDATE", 10, 0x300, 0x100⟩, ⟨"FINISH", 10, 0x3FF, 0x200⟩]

/-- The opcode map. -/
def opcodeRows : List OpRow := busRows ++ commandRows

/-- The word is of the row's length and equals its pattern on its mask (R68 to R70). -/
def OpRow.matchesWord (r : OpRow) (w : EncWord) : Bool :=
  r.width == w.width && w.value &&& r.mask == r.pattern

/-- Some word is of both rows (of one length, with patterns that agree where both masks look). -/
def OpRow.overlaps (r q : OpRow) : Bool :=
  r.width == q.width && r.pattern &&& q.mask == q.pattern &&& r.mask

/-- The word of `bits` bits whose value is `w`, if `w` has no more bits than the format. The formats are told apart
by length, as given (38, 32, 10) or in whole bytes (40, 32, 16): no other context stands in a table row (R66)
(DESIGN CHOICE, assumption log 17). -/
def tableWord (nbits w : Nat) : Option EncWord :=
  match nbits with
  | 38 => if w < 2 ^ 38 then some (.busAccess (BitVec.ofNat 38 w)) else none
  | 40 => if w < 2 ^ 38 then some (.busAccess (BitVec.ofNat 38 w)) else none
  | 32 => if w < 2 ^ 32 then some (.command (BitVec.ofNat 32 w)) else none
  | 10 => if w < 2 ^ 10 then some (.microOp (BitVec.ofNat 10 w)) else none
  | 16 => if w < 2 ^ 10 then some (.microOp (BitVec.ofNat 10 w)) else none
  | _ => none

/-- The instruction the decoder reads from a word of the opcode table's numbering; none where it refuses. -/
def decodeTableWord (nbits w : Nat) : Option Instr :=
  match tableWord nbits w with
  | some e =>
    match decode e with
    | .ok i => some i
    | .error _ => none
  | none => none

end Sys2Proof
end

