-- ==== Sys2Proof/Config.lean ====
section
/-! DEFINITION. What is fixed for one machine: the parameters the spec fixes, as numbers, and its OPEN parameters
and free values, as constants with no body (spec 00_scope R7; 92_eei_decisions, the list of OPEN parameters). -/

namespace Sys2Proof.Config

/-- `CRC_INIT`: the remainder a transaction starts from (00_scope R7; 41 R101). -/
def crcInit : Byte := 0x00#8

/-- The size of the host-memory address space, `2 ^ ADDR_W` bytes (00_scope R7; 20 R39). -/
def addrSpace : Nat := 2 ^ 32

/-- One range of addresses, both ends included, and whether the platform completes a one-byte read there. A list
of these, read first match first, is the platform predicate `MEM_ADMIT` as plain data (00_scope R7; 20 R41). -/
structure AdmitRange where
  lo : Nat
  hi : Nat
  ok : Bool
  deriving DecidableEq, Repr

/-- `CRC_TABLE` (OPEN, 92 D3): the contents of the table ROM that the spec does not give (10_state R24).
What State.reset holds in its `rom`; free, so that no proof can see an entry (assumption log 9). -/
opaque crcTable : Table

/-- Bits 31:5 of `ENGINE_BASE` (OPEN, 92 D4); bits 4:0 are 0, since it is a multiple of 0x20 (10_state R28).
What State.reset holds for its one instance (assumption log 10). -/
opaque engineWindow : BitVec 27

/-- `MEM_ADMIT` (OPEN, 92 D17) as State.reset holds it (assumption log 11). -/
opaque admission : List AdmitRange

/-- FREE VALUE: what the byte at an address holds that no step has written yet. The spec leaves the contents of
host memory to the host (20 R39) (DESIGN CHOICE, assumption log 8). -/
opaque unwrittenByte : Nat → Byte

end Sys2Proof.Config
end

