-- ==== Sys2Proof/Machine/State.lean ====
section
/-! DEFINITION. The state of the machine: each engine instance's registers and flags (spec 10_state), the table ROM,
host memory, the platform's parameters, and the moves of the agents still to come. -/

namespace Sys2Proof.Machine

/-- The state of one engine instance (10_state R15; the names are the spec's). CTRL, STATUS and the reserved slots
have no storage of their own (R28, R29, R30, R35). -/
structure Engine where
  /-- The remainder, 8 bits, hidden from the host (R17). -/
  R : Byte
  /-- The byte index, 32 bits, hidden from the host (R19). -/
  I : Word32
  /-- STATUS bit 0: a transaction is in progress (R20, R21). -/
  BUSY : Bool
  /-- STATUS bit 1: the last transaction has completed (R20, R21). -/
  DONE : Bool
  /-- STATUS bits 7:4: the error code of the last completed transaction (R21, R30, 60 R115). -/
  ERR : BitVec 4
  /-- The address of the first buffer byte (R31). -/
  BASE : Word32
  /-- The number of bytes the host declares present, unsigned (R32). -/
  SIZE : Word32
  /-- The length, read as two's complement (R33). -/
  LEN : Word32
  /-- RESULT's bits 7:0; its other bits read 0 (R34). -/
  RESULT : Byte
  /-- Bits 31:5 of this instance's `ENGINE_BASE`, a platform parameter and a multiple of 0x20 (R28, 20 R53). -/
  window : BitVec 27
  deriving DecidableEq, Repr

/-- The two errors of 60 R115. An error is a completion status, not a trap (60 R123). -/
inductive ErrCode where
  /-- InvalidLength (60 R116). -/
  | invalidLength
  /-- NullBuffer (60 R117). -/
  | nullBuffer
  deriving DecidableEq, Repr

/-- What `validate` answers (40 R94). -/
inductive Validation where
  /-- `Err(code)`. -/
  | err (c : ErrCode)
  /-- `Ok(n)`: `n` bytes are to be read. -/
  | ok (n : Nat)
  deriving DecidableEq, Repr

/-- A register of the block, by name (R28). -/
inductive Reg where
  | CTRL | STATUS | BASE | SIZE | LEN | RESULT | RSV18 | RSV1C
  deriving DecidableEq, Repr

/-- One host access as the platform's bus carries it: the bus address is `ENGINE_BASE + OFF` (30 R63). -/
structure BusRequest where
  addr : Addr
  /-- The width of the access in bits; only 32 is defined (20 R49). -/
  bits : Nat
  write : Bool
  data : Word32
  deriving DecidableEq, Repr

/-- One move of an agent. The list of moves still to come is the one global order of 20 R55; every order of the
agents' moves is some list (60 R122) (DESIGN CHOICE, assumption log 1). -/
inductive Event where
  /-- The host accesses the addressed instance's register block: a B word (30 R63). -/
  | access (w : BitVec 38)
  /-- The host accesses a bus address; the window that holds it is addressed first (30 R63, 20 R53). -/
  | bus (r : BusRequest)
  /-- The host writes a byte of host memory (40 R75, 20 R55). The spec gives a host memory access no width (00 R10); that
  one is one byte, and a wider one several moves, is the model's choice (DESIGN CHOICE, assumption log 21). -/
  | memWrite (a : Addr) (v : Byte)
  /-- The host reads a byte of host memory (20 R55), one byte as for a write (DESIGN CHOICE, assumption log 21). -/
  | memRead (a : Addr)
  /-- The addressed instance's sequencer takes its step, if one is enabled (41 R100). -/
  | engine
  /-- A U word at the addressed instance's pipeline, as a trace writes it (30 R65, R73). It runs only where the
  sequencer or an accept would produce it (DESIGN CHOICE, assumption log 4). -/
  | micro (w : BitVec 10)
  /-- The moves that follow concern the instance with this window: software tells the instances apart by
  `ENGINE_BASE` (60 R129) (DESIGN CHOICE, assumption log 13). -/
  | select (window : BitVec 27)
  /-- The platform asserts reset (70 R132). -/
  | reset
  deriving DecidableEq, Repr

/-- Host memory: pairs of an address and the byte last written there, addresses strictly rising. An address that is
not listed has not been written. -/
abbrev Memory := List Host.Cell

/-- The whole machine. -/
structure State where
  /-- The engine instance that is addressed. -/
  eng : Engine
  /-- The instances before it, the nearest first (R27, 60 R129). -/
  before : List Engine
  /-- The instances after it, the nearest first. -/
  after : List Engine
  /-- The table ROM, shared by every instance and written by nothing (R22, R23, R27). -/
  rom : Table
  /-- Host memory (20 R39). -/
  mem : Memory
  /-- The platform predicate `MEM_ADMIT` (20 R41): the first range that holds the address decides, and an address
  in no range is admitted. -/
  admission : List Config.AdmitRange
  /-- The value the host's last read returned: the `return` of 40 R76 to R82. The model's own field; none before
  the first read (DESIGN CHOICE, assumption log 14). -/
  readData : Option Word32
  /-- The moves still to come, the next first. The model's own field (DESIGN CHOICE, assumption log 1). -/
  inputs : List Event
  /-- Reset is asserted together with whatever comes next, and takes precedence over it (70 R132, 60 R122). The
  model's own field (DESIGN CHOICE, assumption log 15). -/
  resetPin : Bool
  deriving DecidableEq, Repr

/-- Why the machine stops where the spec leaves no step. -/
inductive Fault where
  /-- UPDATE, run by itself, whose read the platform does not admit: "The engine has no step" (20 R41, 60 R119).
  Raised by execUpdate; the sequencer itself then takes no step and the other agents go on. Safe. -/
  | readNotAdmitted
  /-- UPDATE, run by itself, whose read address `uint32(BASE) + I` is outside the 32-bit address space. Validation
  shuts this out (20 R43), so no run reaches it. Raised by execUpdate. Safe. -/
  | readOutsideSpace
  deriving DecidableEq, Repr

/-- What the model gives no meaning, by name. -/
inductive Refusal where
  /-- An instruction without a meaning in Dispatch; no arm answers it now. Safe. -/
  | notModelled (mnemonic : String)
  /-- A register access that is not 32 bits wide, or at an offset that is not a multiple of 4: `REG_ACCESS_OTHER`,
  "The model refuses such an access" (20 R49, 60 R120). Raised by the access and bus moves. Safe. -/
  | regAccessOther
  /-- A reserved U word: "The model refuses such a word" (30 R71 item 5, 60 R120). Raised by the micro move. Safe. -/
  | reservedMicroOp
  /-- UPDATE or FINISH, run by itself, in a state in which 41 R100 does not enable it. Raised by execUpdate and
  execFinish; the sequencer never produces such a step. Safe. -/
  | microOpNotEnabled
  /-- A U word that neither the sequencer nor an accept would produce in this state: "Only the engine's sequencer
  produces U words; the host cannot issue one" (30 R65). Raised by the micro move. Safe. -/
  | microOpNotProduced
  /-- A bus address, or a selection, that is no engine's window: it is not this hardware's (20 R53). Raised by the
  bus and select moves. Safe. -/
  | noEngineAtAddress
  deriving DecidableEq, Repr

/-- An engine instance right after reset: every register and flag 0, the phase IDLE (R15, 70 R132). Its place in the
address map is the platform's and is not reset. -/
def Engine.resetAt (window : BitVec 27) : Engine where
  R := 0x00#8
  I := 0x00000000#32
  BUSY := false
  DONE := false
  ERR := 0x0#4
  BASE := 0x00000000#32
  SIZE := 0x00000000#32
  LEN := 0x00000000#32
  RESULT := 0x00#8
  window := window

/-- The machine right after reset: one engine instance (NUM_ENGINES' default, 00_scope R7) in IDLE; the OPEN
parameters are free (assumption log 9, 10, 11); nothing has been written to memory, and no move is pending. -/
def State.reset : State where
  eng := Engine.resetAt Config.engineWindow
  before := []
  after := []
  rom := Config.crcTable
  mem := []
  admission := Config.admission
  readData := none
  inputs := []
  resetPin := false

end Sys2Proof.Machine
end

