-- ==== Sys2Proof/Machine/Operands.lean ====
section
/-! DEFINITION. How operand values are formed: register values as numbers, the effective address of the engine's one
load, the table index and the register block's slots (spec 00_scope R9; 30_encoding R67; 10_state R28; 41 R145). -/

namespace Sys2Proof.Machine

/-- `sint32(v)`: two's complement, -2^31..2^31-1 (00_scope R9). -/
def sint32 (v : Word32) : Int := v.toInt

/-- `uint32(v)`: 0..2^32-1 (00_scope R9). -/
def uint32 (v : Word32) : Nat := v.toNat

/-- `zext_32(v)` (00_scope R9). -/
def zext32 {n : Nat} (v : BitVec n) : Word32 := v.setWidth 32

/-- `T[i]`: the table entry at an 8-bit index; no index is out of range (10_state R22, 41 R102). -/
def lookup (T : Table) (i : Byte) : Byte := T[i.toNat]'i.isLt

/-- The table index of byte `b` under remainder `r`, their 8-bit exclusive OR (30 R67, 41 R102). -/
def tableIndex (b r : Byte) : Byte := b ^^^ r

/-- The address of the engine's next read, `uint32(BASE) + I` with no modulus (41 R145, 20 R43). -/
def Engine.readAddress (e : Engine) : Nat := uint32 e.BASE + uint32 e.I

/-- UPDATE is enabled: `BUSY = 1 and I < sint32(LEN)` (41 R100). -/
def Engine.updateEnabled (e : Engine) : Bool := e.BUSY && decide ((uint32 e.I : Int) < sint32 e.LEN)

/-- FINISH is enabled: `BUSY = 1 and I = sint32(LEN)` (41 R100). -/
def Engine.finishEnabled (e : Engine) : Bool := e.BUSY && decide ((uint32 e.I : Int) = sint32 e.LEN)

/-- `ENGINE_BASE`: a multiple of 0x20 (10_state R28). -/
def Engine.engineBase (e : Engine) : Addr := e.window ++ 0#5

/-- The window a bus address lies in: its bits 31:5. -/
def windowOf (a : Addr) : BitVec 27 := a.extractLsb' 5 27

/-- The offset of a bus address in its window: its bits 4:0. -/
def offsetOf (a : Addr) : BitVec 5 := a.extractLsb' 0 5

/-- The byte offset of a register in the window (10_state R28). -/
def Reg.offset : Reg → BitVec 5
  | .CTRL => 0x00#5
  | .STATUS => 0x04#5
  | .BASE => 0x08#5
  | .SIZE => 0x0C#5
  | .LEN => 0x10#5
  | .RESULT => 0x14#5
  | .RSV18 => 0x18#5
  | .RSV1C => 0x1C#5

/-- The register whose slot holds the byte at an offset: offset bits 4:2 (10_state R28). -/
def regAt (off : BitVec 5) : Reg :=
  match (off.extractLsb' 2 3).toNat with
  | 0 => .CTRL
  | 1 => .STATUS
  | 2 => .BASE
  | 3 => .SIZE
  | 4 => .LEN
  | 5 => .RESULT
  | 6 => .RSV18
  | _ => .RSV1C

end Sys2Proof.Machine
end

