-- ==== Sys2Proof/Machine/Flags.lean ====
section
/-! DEFINITION. The status flags and what decides them: the STATUS word, the error codes and the validation of a
COMPUTE (spec 10_state R20, R21, R30; 40 R94; 60 R115). -/

namespace Sys2Proof.Machine

/-- The value STATUS reads: `zext_32({ERR[3:0], 0b00, DONE, BUSY})` (10_state R30). -/
def Engine.statusWord (e : Engine) : Word32 :=
  zext32 (e.ERR ++ 0b00#2 ++ BitVec.ofBool e.DONE ++ BitVec.ofBool e.BUSY)

/-- The numeric error codes (60 R115). -/
def ErrCode.code : ErrCode → BitVec 4
  | .invalidLength => 0x1#4
  | .nullBuffer => 0x2#4

/-- `validate(bufv, BASE, SIZE, LEN)`, the checks in the order of 40 R94; on mathematical integers, so no comparison
wraps (41 R142). -/
def validate (bufv : Bool) (base size len : Word32) : Validation :=
  if sint32 len < 0 then .err .invalidLength
  else if bufv = false ∧ 0 < sint32 len then .err .nullBuffer
  else if bufv = false then .ok 0
  else if (uint32 size : Int) < sint32 len then .err .invalidLength
  else if (Config.addrSpace : Int) < uint32 base + sint32 len then .err .invalidLength
  else .ok (sint32 len).toNat

/-- The value a register reads (10_state R28 to R35): CTRL and the reserved slots read 0, RESULT is zero-extended. -/
def Engine.readReg (e : Engine) : Reg → Word32
  | .CTRL => 0x00000000#32
  | .STATUS => e.statusWord
  | .BASE => e.BASE
  | .SIZE => e.SIZE
  | .LEN => e.LEN
  | .RESULT => zext32 e.RESULT
  | .RSV18 => 0x00000000#32
  | .RSV1C => 0x00000000#32

/-- The byte of the window at an offset, where a platform shows the registers' bytes: byte `j` of a register holds
its bits `8j+7 : 8j`, little-endian (20 R46). -/
def Engine.windowByte (e : Engine) (off : BitVec 5) : Byte :=
  (e.readReg (regAt off)).extractLsb' (8 * (off.toNat % 4)) 8

end Sys2Proof.Machine
end

