-- ==== Sys2Proof/Machine/Ops.lean ====
section
/-! DEFINITION. The named operations the meanings share: host memory, the platform's admission, the parts of an
accept and of a completion, reset, and the choice of the instance that is addressed (spec 20_memory; 40 R93 to R96;
41 R101, R102; 70 R132). Completing with an error is the one operation that stands where an instruction set takes an
exception: an error is a status, not a trap, and nothing returns from it (60 R123, R124). -/

namespace Sys2Proof.Machine

/-- The byte last written at an address; none where nothing has been written. -/
def Memory.get? : Memory → Nat → Option Byte
  | [], _ => none
  | (k, v) :: m, a => if k = a then some v else Memory.get? m a

/-- Write a byte, keeping the addresses strictly rising. -/
def Memory.set : Memory → Nat → Byte → Memory
  | [], a, v => [(a, v)]
  | (k, u) :: m, a, v =>
    if a < k then (a, v) :: (k, u) :: m
    else if a = k then (a, v) :: m
    else (k, u) :: Memory.set m a v

/-- The addresses are strictly rising from `lo` on and inside the address space. -/
def Memory.wfFrom : Nat → Memory → Bool
  | _, [] => true
  | lo, (k, _) :: m => decide (lo ≤ k) && decide (k < Config.addrSpace) && Memory.wfFrom (k + 1) m

/-- The canonical form: addresses strictly rising, each inside the 32-bit space. An unlisted address has no value
written, so no entry equals what it reads as (assumption log 8). -/
def Memory.wf (m : Memory) : Bool := Memory.wfFrom 0 m

/-- The byte of host memory at an address: the last one written there, and a free value where none was
(20 R39, R55; assumption log 8). -/
def Memory.byte (m : Memory) (a : Nat) : Byte := (m.get? a).getD (Config.unwrittenByte a)

/-- The platform admits a one-byte read at the address: `MEM_ADMIT` (20 R41). -/
def admits : List Config.AdmitRange → Nat → Bool
  | [], _ => true
  | r :: rs, a => if r.lo ≤ a ∧ a ≤ r.hi then r.ok else admits rs a

/-- `MemRead(addr, 1)` (20 R41): the byte, or none where the read does not complete. -/
def State.memRead (s : State) (a : Nat) : Option Byte :=
  if a < Config.addrSpace ∧ admits s.admission a = true then some (s.mem.byte a) else none

/-- INIT's effect: `R <- 0x00; I <- 0` (41 R101). -/
def Engine.initRegs (e : Engine) : Engine := { e with R := Config.crcInit, I := 0x00000000#32 }

/-- UPDATE's effect: `R <- T[b ^ R]; I <- I + 1` (41 R102). -/
def Engine.fold (T : Table) (b : Byte) (e : Engine) : Engine :=
  { e with R := lookup T (tableIndex b e.R), I := e.I + 1#32 }

/-- `complete_ok(v)` (40 R95). -/
def Engine.completeOk (v : Byte) (e : Engine) : Engine :=
  { e with RESULT := v, ERR := 0x0#4, BUSY := false, DONE := true }

/-- `complete_error(code)` (40 R96). -/
def Engine.completeError (c : ErrCode) (e : Engine) : Engine :=
  { e with RESULT := 0x00#8, ERR := c.code, BUSY := false, DONE := true }

/-- The first three assignments of ACCEPT: `DONE <- 0; ERR <- 0x0; RESULT <- 0x00` (40 R93). -/
def Engine.clearOutcome (e : Engine) : Engine := { e with DONE := false, ERR := 0x0#4, RESULT := 0x00#8 }

/-- ACCEPT's last assignment for `Ok(n)` with `n >= 1`: `BUSY <- 1` (40 R93). -/
def Engine.startTransaction (e : Engine) : Engine := { e with BUSY := true }

/-- ACCEPT's case on what validation answered (40 R93). -/
def Engine.conclude (v : Validation) (e : Engine) : Engine :=
  match v with
  | .err c => e.completeError c
  | .ok 0 => e.completeOk e.R
  | .ok (_ + 1) => e.startTransaction

/-- `ACCEPT(bufv)`, one atomic step (40 R93). -/
def Engine.accept (bufv : Bool) (e : Engine) : Engine :=
  e.clearOutcome.initRegs.conclude (validate bufv e.BASE e.SIZE e.LEN)

/-- COMPUTE: ignored while BUSY = 1 (40 R91), else ACCEPT (R92). -/
def Engine.compute (bufv : Bool) (e : Engine) : Engine := if e.BUSY then e else e.accept bufv

/-- A write to BASE, SIZE or LEN changes nothing while BUSY = 1 (40 R83). -/
def Engine.writeParam (e new : Engine) : Engine := if e.BUSY then e else new

/-- The engine with a new BASE. -/
def Engine.setBase (v : Word32) (e : Engine) : Engine := { e with BASE := v }

/-- The engine with a new SIZE. -/
def Engine.setSize (v : Word32) (e : Engine) : Engine := { e with SIZE := v }

/-- The engine with a new LEN. -/
def Engine.setLen (v : Word32) (e : Engine) : Engine := { e with LEN := v }

/-- Reset of one instance: every element takes its reset value; its window stays (70 R132). -/
def Engine.applyReset (e : Engine) : Engine := Engine.resetAt e.window

/-- The state with a new addressed instance; everything else stays. -/
def State.setEng (e : Engine) (s : State) : State := { s with eng := e }

/-- The host's read returns a value; nothing else changes (40 R76 to R82, 20 R52). -/
def State.returnToHost (v : Word32) (s : State) : State := { s with readData := some v }

/-- The host writes a byte of memory (20 R55); one byte is the model's choice (DESIGN CHOICE, assumption log 21). -/
def State.hostWrite (a : Addr) (v : Byte) (s : State) : State := { s with mem := s.mem.set a.toNat v }

/-- The reset event: every instance is reset; the ROM and host memory are not affected (70 R132, 60 R129). -/
def State.applyReset (s : State) : State :=
  { s with
    eng := s.eng.applyReset
    before := s.before.map Engine.applyReset
    after := s.after.map Engine.applyReset }

/-- Every instance, in order. -/
def State.engines (s : State) : List Engine := s.before.reverse ++ s.eng :: s.after

/-- Find the first instance of a list whose window is `win`: the instances passed over (the nearest first), the
instance, and the rest. -/
def focusFrom (win : BitVec 27) : List Engine → List Engine → Option (List Engine × Engine × List Engine)
  | _, [] => none
  | pre, e :: es => if e.window = win then some (pre, e, es) else focusFrom win (e :: pre) es

/-- Address the instance whose window is `win`; none where the platform has no such instance (60 R129). -/
def State.focus (win : BitVec 27) (s : State) : Option State :=
  match focusFrom win [] s.engines with
  | some (pre, e, post) => some { s with eng := e, before := pre, after := post }
  | none => none

end Sys2Proof.Machine
end

