-- ==== Sys2Proof/Machine/Commands.lean ====
section
/-! DEFINITION. The commands of format C and the write to CTRL that issues them (spec 40_host_commands R89 to
R92). -/

namespace Sys2Proof.Machine

/-- NOP: no state changes, in every phase (R90). -/
def execNop (s : State) : Host.Outcome State Fault Refusal := .next s

/-- COMPUTE: starts a transaction, or is ignored while BUSY = 1 (R91, R92). -/
def execCompute (bufv : Bool) (s : State) : Host.Outcome State Fault Refusal :=
  .next (s.setEng (s.eng.compute bufv))

/-- WR_CTRL: the command that the C word `c` spells, NOP or COMPUTE; a reserved OP changes nothing (R89). -/
def execWrCtrl (c : Word32) (s : State) : Host.Outcome State Fault Refusal :=
  match (cmdOp c).toNat with
  | 0x0 => .next s
  | 0x1 => .next (s.setEng (s.eng.compute (cmdBufv c)))
  | _ => .next s

end Sys2Proof.Machine
end

