-- ==== Sys2Proof/Machine/Pipeline.lean ====
section
/-! DEFINITION. The micro-operations of the lookup pipeline and the sequencer that produces them
(spec 41_lookup_pipeline R99 to R103). -/

namespace Sys2Proof.Machine

/-- INIT: `R <- 0x00; I <- 0` (R101). -/
def execInit (s : State) : Host.Outcome State Fault Refusal := .next (s.setEng s.eng.initRegs)

/-- UPDATE: fold the byte `b`, which FETCH read at `uint32(BASE) + I` and the U word carries (R99, R102). Where R100
does not enable it the spec gives it no effect; where the read is not admitted it is stuck (20 R41)
(DEDUCED, assumption logs 5, 6 and 7). -/
def execUpdate (b : Byte) (s : State) : Host.Outcome State Fault Refusal :=
  if s.eng.updateEnabled = false then .refused .microOpNotEnabled
  else if Config.addrSpace ≤ s.eng.readAddress then .fault .readOutsideSpace
  else if admits s.admission s.eng.readAddress = false then .fault .readNotAdmitted
  else .next (s.setEng (s.eng.fold s.rom b))

/-- FINISH: publish the remainder, `complete_ok(R)` (R103). Where R100 does not enable it the spec gives it no
effect (DEDUCED, assumption log 5). -/
def execFinish (s : State) : Host.Outcome State Fault Refusal :=
  if s.eng.finishEnabled = false then .refused .microOpNotEnabled
  else .next (s.setEng (s.eng.completeOk s.eng.R))

/-- The one step the sequencer of the addressed instance has enabled, if any (R100): UPDATE with the byte FETCH reads,
none while that read is not admitted (60 R119); FINISH once all bytes are folded; none in IDLE and DONE. -/
def State.sequencer (s : State) : Option Instr :=
  if s.eng.updateEnabled then (s.memRead s.eng.readAddress).map Instr.update
  else if s.eng.finishEnabled then some .finish
  else none

/-- A U word's instruction is one that this state produces: the sequencer's own step, or INIT where an accept could
take place, that is, while BUSY = 0 (30 R65, 41 R100, 40 R93) (DESIGN CHOICE, assumption log 4). -/
def State.produces (s : State) (i : Instr) : Bool :=
  s.sequencer == some i || (i == .init && !s.eng.BUSY)

end Sys2Proof.Machine
end

