-- ==== Sys2Proof/Machine/RegisterReads.lean ====
section
/-! DEFINITION. The host's register reads (spec 40_host_commands R76 to R82). A read returns a value to the host and
changes nothing else (20 R52). -/

namespace Sys2Proof.Machine

/-- RD_CTRL: CTRL keeps no state and reads 0 (R76). -/
def execRdCtrl (s : State) : Host.Outcome State Fault Refusal := .next (s.returnToHost (s.eng.readReg .CTRL))

/-- RD_STATUS: the STATUS word; the read clears nothing (R77). -/
def execRdStatus (s : State) : Host.Outcome State Fault Refusal := .next (s.returnToHost (s.eng.readReg .STATUS))

/-- RD_BASE (R78). -/
def execRdBase (s : State) : Host.Outcome State Fault Refusal := .next (s.returnToHost (s.eng.readReg .BASE))

/-- RD_SIZE (R79). -/
def execRdSize (s : State) : Host.Outcome State Fault Refusal := .next (s.returnToHost (s.eng.readReg .SIZE))

/-- RD_LEN: the raw 32 bits (R80). -/
def execRdLen (s : State) : Host.Outcome State Fault Refusal := .next (s.returnToHost (s.eng.readReg .LEN))

/-- RD_RESULT: the result byte, zero-extended; the read does not clear it (R81). -/
def execRdResult (s : State) : Host.Outcome State Fault Refusal := .next (s.returnToHost (s.eng.readReg .RESULT))

/-- RD_RSV: a reserved slot reads 0, whichever of the two `off` names (R82). -/
def execRdRsv (off : BitVec 5) (s : State) : Host.Outcome State Fault Refusal :=
  .next (s.returnToHost (s.eng.readReg (if off = 0x18#5 then .RSV18 else .RSV1C)))

end Sys2Proof.Machine
end

