-- ==== Sys2Proof/Machine/RegisterWrites.lean ====
section
/-! DEFINITION. The host's register writes, but for CTRL (spec 40_host_commands R83 to R88). -/

namespace Sys2Proof.Machine

/-- WR_STATUS: STATUS is read-only, and the write is ignored (R87). -/
def execWrStatus (_v : Word32) (s : State) : Host.Outcome State Fault Refusal := .next s

/-- WR_BASE: `if BUSY = 0 then BASE <- v` (R83, R84). -/
def execWrBase (v : Word32) (s : State) : Host.Outcome State Fault Refusal :=
  .next (s.setEng (s.eng.writeParam (s.eng.setBase v)))

/-- WR_SIZE: `if BUSY = 0 then SIZE <- v` (R83, R85). -/
def execWrSize (v : Word32) (s : State) : Host.Outcome State Fault Refusal :=
  .next (s.setEng (s.eng.writeParam (s.eng.setSize v)))

/-- WR_LEN: `if BUSY = 0 then LEN <- v` (R83, R86). -/
def execWrLen (v : Word32) (s : State) : Host.Outcome State Fault Refusal :=
  .next (s.setEng (s.eng.writeParam (s.eng.setLen v)))

/-- WR_RESULT: RESULT is read-only, and the write is ignored (R87). -/
def execWrResult (_v : Word32) (s : State) : Host.Outcome State Fault Refusal := .next s

/-- WR_RSV: a write to a reserved slot is ignored, whichever of the two `off` names (R88). -/
def execWrRsv (_off : BitVec 5) (_v : Word32) (s : State) : Host.Outcome State Fault Refusal := .next s

end Sys2Proof.Machine
end

