-- ==== Sys2Proof/Machine/Dispatch.lean ====
section
/-! DEFINITION. exec: one arm per instruction. -/

namespace Sys2Proof.Machine

def exec (i : Instr) (s : State) : Host.Outcome State Fault Refusal :=
  match i with
  -- format B, the host's register accesses
  | .rdCtrl => Sys2Proof.Machine.execRdCtrl s
  | .wrCtrl c => Sys2Proof.Machine.execWrCtrl c s
  | .rdStatus => Sys2Proof.Machine.execRdStatus s
  | .wrStatus v => Sys2Proof.Machine.execWrStatus v s
  | .rdBase => Sys2Proof.Machine.execRdBase s
  | .wrBase v => Sys2Proof.Machine.execWrBase v s
  | .rdSize => Sys2Proof.Machine.execRdSize s
  | .wrSize v => Sys2Proof.Machine.execWrSize v s
  | .rdLen => Sys2Proof.Machine.execRdLen s
  | .wrLen v => Sys2Proof.Machine.execWrLen v s
  | .rdResult => Sys2Proof.Machine.execRdResult s
  | .wrResult v => Sys2Proof.Machine.execWrResult v s
  | .rdRsv off => Sys2Proof.Machine.execRdRsv off s
  | .wrRsv off v => Sys2Proof.Machine.execWrRsv off v s
  -- format C, the commands
  | .nop => Sys2Proof.Machine.execNop s
  | .compute bufv => Sys2Proof.Machine.execCompute bufv s
  -- format U, the micro-operations
  | .init => Sys2Proof.Machine.execInit s
  | .update b => Sys2Proof.Machine.execUpdate b s
  | .finish => Sys2Proof.Machine.execFinish s

end Sys2Proof.Machine
end

