-- ==== Sys2Proof/Machine/Agents.lean ====
section
/-! DEFINITION. The agents' moves: what one move of the host, the engine or the platform does, and which move comes
next (spec 20 R55; 40 R75; 41 R100; 60 R122; 70 R132); and how a word of the opcode table is put where the next step
runs it. -/

namespace Sys2Proof.Machine

/-- The host accesses the addressed instance's register block with a B word. A misaligned offset is refused:
`REG_ACCESS_OTHER` (20 R49, 30 R71). -/
def runAccess (w : BitVec 38) (s : State) : Host.Outcome State Fault Refusal :=
  match decodeBus w with
  | .ok i => exec i s
  | .error _ => .refused .regAccessOther

/-- The host accesses a bus address: the instance in whose window it lies is addressed, and the B word has the
address's low bits as OFF (30 R63, 20 R53). An access that is not 32 bits wide is refused (20 R49). -/
def runBus (r : BusRequest) (s : State) : Host.Outcome State Fault Refusal :=
  match s.focus (windowOf r.addr) with
  | none => .refused .noEngineAtAddress
  | some s' =>
    if r.bits = 32 then runAccess (busWord r.write (offsetOf r.addr) r.data) s' else .refused .regAccessOther

/-- The addressed instance's sequencer takes its step; where it has none, nothing happens: the engine waits, or is
stuck on a read that is not admitted (41 R100, 60 R119; assumption log 6). -/
def runEngine (s : State) : Host.Outcome State Fault Refusal :=
  match s.sequencer with
  | some i => exec i s
  | none => .next s

/-- A U word at the pipeline: it runs where this state produces it, and is refused otherwise (30 R65, R71 item 5;
assumption log 4). -/
def runMicro (w : BitVec 10) (s : State) : Host.Outcome State Fault Refusal :=
  match decodeMicro w with
  | .error _ => .refused .reservedMicroOp
  | .ok i => if s.produces i then exec i s else .refused .microOpNotProduced

/-- The moves that follow concern the instance with this window (60 R129). -/
def runSelect (win : BitVec 27) (s : State) : Host.Outcome State Fault Refusal :=
  match s.focus win with
  | some s' => .next s'
  | none => .refused .noEngineAtAddress

/-- One move of one agent, an atomic step (20 R51, R55). -/
def runEvent (ev : Event) (s : State) : Host.Outcome State Fault Refusal :=
  match ev with
  | .access w => runAccess w s
  | .bus r => runBus r s
  | .memWrite a v => .next (s.hostWrite a v)
  | .memRead a => .next (s.returnToHost (zext32 (s.mem.byte a.toNat)))
  | .engine => runEngine s
  | .micro w => runMicro w s
  | .select win => runSelect win s
  | .reset => .next s.applyReset

/-- Which move comes next, and the state without it: reset, if it is asserted, before every other (70 R132); then the
next of the moves still to come; and when none is left, the addressed instance's sequencer (70 R141: the engine
always moves again; assumption log 2). -/
def State.nextEvent (s : State) : Event × State :=
  if s.resetPin then (.reset, { s with resetPin := false })
  else
    match s.inputs with
    | [] => (.engine, s)
    | ev :: rest => (ev, { s with inputs := rest })

/-- The machine with a move put before every other. -/
def State.schedule (ev : Event) (s : State) : State :=
  { s with inputs := ev :: s.inputs, resetPin := false }

/-- A transaction over one byte, with `i` bytes folded: what an instance holds where the pipeline is to run a word
that its own state does not produce. -/
def Engine.oneByteTransaction (i : Word32) (e : Engine) : Engine :=
  { e with BUSY := true, DONE := false, ERR := 0x0#4, RESULT := 0x00#8, SIZE := 1#32, LEN := 1#32, I := i }

/-- The state in which the pipeline produces UPDATE with the byte `b` next. -/
def State.readyForUpdate (b : Byte) (s : State) : State :=
  let e := if s.eng.updateEnabled && decide (s.eng.readAddress < Config.addrSpace) then s.eng
    else s.eng.oneByteTransaction 0#32
  { s with
    eng := e
    mem := s.mem.set e.readAddress b
    admission := ⟨e.readAddress, e.readAddress, true⟩ :: s.admission }

/-- The state in which the pipeline produces FINISH next. -/
def State.readyForFinish (s : State) : State :=
  { s with eng := if s.eng.finishEnabled then s.eng else s.eng.oneByteTransaction 1#32 }

/-- The state in which an accept, and so INIT, may take place. -/
def State.readyForInit (s : State) : State := { s with eng := { s.eng with BUSY := false } }

/-- Put a word where the next step runs it: a B word is the host's next access, a C word the DATA of the host's next
write to CTRL, a U word the pipeline's next word, in a state that produces it (assumption log 3). -/
def State.placeWord (e : EncWord) (s : State) : State :=
  match e with
  | .busAccess w => s.schedule (.access w)
  | .command c => s.schedule (.access (writeWord 0x00#5 c))
  | .microOp w =>
    match decodeMicro w with
    | .ok (.update b) => (s.readyForUpdate b).schedule (.micro w)
    | .ok .finish => s.readyForFinish.schedule (.micro w)
    | .ok .init => s.readyForInit.schedule (.micro w)
    | _ => s.schedule (.micro w)

end Sys2Proof.Machine
end

