-- ==== Sys2Proof/Machine/Step.lean ====
section
/-! DEFINITION. step: the next move of the agents, run. The engine has no program counter and fetches no instructions
(spec 10_state R19, 20 R47): what a step runs is the next move in the global order (20 R55). -/

namespace Sys2Proof.Machine

/-- One step of the machine: one agent's move, atomic (20 R51, R55). -/
def step (s : State) : Host.Outcome State Fault Refusal :=
  runEvent s.nextEvent.1 s.nextEvent.2

/-- `s` with the word `w` of an opcode-table row of `nbits` bits put where the very next step runs it (assumption
log 3). -/
def State.withFetchWord (s : State) (nbits w : Nat) : State :=
  match tableWord nbits w with
  | some e => s.placeWord e
  | none => s

end Sys2Proof.Machine
end

