-- ==== Sys2Proof/Machine/Assembler.lean ====
section
/-! DEFINITION. The spec's written forms of host accesses and micro-operations, and its pseudo-instructions
(spec 30_encoding R73, R74). -/

namespace Sys2Proof.Machine

/-- One line of the assembler syntax (R73). -/
inductive Asm where
  /-- `rd REG`. -/
  | rd (r : Reg)
  /-- `wr REG, imm32`; a negative number stands for its 32-bit two's complement. The spec says nothing of a number outside
  -2^31..2^32-1: it is taken modulo 2^32 (DESIGN CHOICE, assumption log 22). -/
  | wr (r : Reg) (imm : Int)
  /-- `u.init`. -/
  | uInit
  /-- `u.update imm8`. -/
  | uUpdate (b : Byte)
  /-- `u.finish`. -/
  | uFinish
  deriving DecidableEq, Repr

/-- The word a line is encoded as (R73); the immediate of `wr` modulo 2^32 (DESIGN CHOICE for a number outside the 32-bit
range, assumption log 22). -/
def Asm.encoding : Asm → EncWord
  | .rd r => .busAccess (readWord r.offset)
  | .wr r imm => .busAccess (writeWord r.offset (BitVec.ofInt 32 imm))
  | .uInit => .microOp 0x000#10
  | .uUpdate b => .microOp (0x100#10 ||| b.setWidth 10)
  | .uFinish => .microOp 0x200#10

/-- The move a line stands for: a host access, or a step of the pipeline in a trace (R73). -/
def Asm.event (l : Asm) : Event :=
  match l.encoding with
  | .busAccess w => .access w
  | .command c => .access (writeWord 0x00#5 c)
  | .microOp w => .micro w

/-- The pseudo-instructions (R74). -/
inductive Pseudo where
  | nop
  | compute
  | computeNobuf
  /-- `poll`: the host reads STATUS, and `again` times more while the value it read has bit 0 set. The loop is the
  host's control flow; the engine sees the repeated reads. -/
  | poll (again : Nat)
  /-- `crc8 base, size, len`, with its `poll`. -/
  | crc8 (base size len : Int) (again : Nat)
  deriving DecidableEq, Repr

/-- What `poll` expands to when the host's loop reads STATUS `again` times more (R74). -/
def pollReads (again : Nat) : List Asm := List.replicate (again + 1) (.rd .STATUS)

/-- The expansion of a pseudo-instruction (R74). -/
def Pseudo.expand : Pseudo → List Asm
  | .nop => [.wr .CTRL 0x00000000]
  | .compute => [.wr .CTRL 0x00000101]
  | .computeNobuf => [.wr .CTRL 0x00000001]
  | .poll again => pollReads again
  | .crc8 base size len again =>
    [.wr .BASE base, .wr .SIZE size, .wr .LEN len, .wr .CTRL 0x00000101] ++ pollReads again
      ++ [.rd .STATUS, .rd .RESULT]

/-- A register's name in the assembler syntax (R73). -/
def Reg.text : Reg → String
  | .CTRL => "CTRL"
  | .STATUS => "STATUS"
  | .BASE => "BASE"
  | .SIZE => "SIZE"
  | .LEN => "LEN"
  | .RESULT => "RESULT"
  | .RSV18 => "RSV18"
  | .RSV1C => "RSV1C"

/-- A line's text, its numbers in decimal (R73). -/
def Asm.text : Asm → String
  | .rd r => "rd " ++ r.text
  | .wr r imm => "wr " ++ r.text ++ ", " ++ toString imm
  | .uInit => "u.init"
  | .uUpdate b => "u.update " ++ toString b.toNat
  | .uFinish => "u.finish"

end Sys2Proof.Machine
end

