-- ==== Sys2Proof/Safety.lean ====
section
/-! DEFINITION. The terms in which claims about the machine are made: the fold the engine computes, the hypotheses on
the table, the invariants of every reachable state, and what a run of the engine reads and runs (spec 00_scope R11;
10_state R24, R25, R38; 20 R42; 41 R100; 40 R98). -/

namespace Sys2Proof.Machine

/-- `crc8(T, s)`: the fold of the update over a byte sequence, from 0x00 (00_scope R11). -/
def crc8 (T : Table) (bs : List Byte) : Byte := bs.foldl (fun r b => lookup T (tableIndex b r)) 0x00#8

/-- The hypothesis `TABLE_KNOWN`: the three entries the source states (10_state R24). -/
def TableKnown (T : Table) : Prop :=
  lookup T 0x00#8 = 0x0C#8 ∧ lookup T 0x0C#8 = 0xC0#8 ∧ lookup T 0xFF#8 = 0x41#8

/-- The six values of the run of 10_state R25. -/
def tableRunBytes : List Byte := [0xAF#8, 0x68#8, 0xD8#8, 0x7B#8, 0x5F#8, 0xB8#8]

/-- The hypothesis `TABLE_RUN`: six consecutive entries hold the run, at an unstated index 0..250 (10_state R25).
No rule depends on it. -/
def TableRun (T : Table) : Prop :=
  ∃ k : Nat, k ≤ 250 ∧ (List.range 6).map (fun j => lookup T (BitVec.ofNat 8 (k + j))) = tableRunBytes

/-- The `n` bytes of memory from address `base` on, the lowest address first. -/
def bufferBytes (m : Memory) (base n : Nat) : List Byte := (List.range n).map fun k => m.byte (base + k)

/-- Every address of `[base, base + n)` is admitted by the platform. -/
def BufferAdmitted (s : State) (base n : Nat) : Prop := ∀ k, k < n → admits s.admission (base + k) = true

/-- The invariants of 10_state R38 on one instance, and that BUSY and DONE are never both 1 (R20). -/
structure Engine.Inv (e : Engine) : Prop where
  /-- R38 item 1. -/
  busy : e.BUSY = true → e.DONE = false ∧ e.ERR = 0x0#4 ∧ e.RESULT = 0x00#8 ∧
    (uint32 e.I : Int) ≤ sint32 e.LEN ∧ 1 ≤ sint32 e.LEN ∧ sint32 e.LEN ≤ uint32 e.SIZE ∧
    (uint32 e.BASE : Int) + sint32 e.LEN ≤ Config.addrSpace
  /-- R38 item 2. -/
  error : e.DONE = true → e.ERR ≠ 0x0#4 → e.RESULT = 0x00#8
  /-- R38 item 3. -/
  idle : e.BUSY = false → e.DONE = false → e.R = 0x00#8 ∧ e.I = 0#32 ∧ e.ERR = 0x0#4 ∧ e.RESULT = 0x00#8
  /-- R38 item 4. -/
  codes : e.ERR = 0x0#4 ∨ e.ERR = 0x1#4 ∨ e.ERR = 0x2#4

/-- The invariant of every reachable state: each instance meets R38, and memory is in canonical form. -/
structure State.Inv (s : State) : Prop where
  engines : ∀ e ∈ s.engines, e.Inv
  memory : s.mem.wf = true

/-- The instance is stuck: its next read is one the platform does not admit (60 R119). -/
def StuckIn (s : State) (e : Engine) : Prop := e.updateEnabled = true ∧ admits s.admission e.readAddress = false

/-- The address the addressed instance's next step reads, if that step is an UPDATE (41 R99, R100). -/
def State.readOfStep (s : State) : Option Nat :=
  match s.sequencer with
  | some (.update _) => some s.eng.readAddress
  | _ => none

/-- The addresses that `k` steps of the addressed instance's sequencer read, in order (20 R42). -/
def readTrace : Nat → State → List Nat
  | 0, _ => []
  | k + 1, s =>
    match runEngine s with
    | .next t => s.readOfStep.toList ++ readTrace k t
    | _ => []

/-- The instructions that `k` steps of the addressed instance's sequencer run, in order (41 R100). -/
def moveTrace : Nat → State → List Instr
  | 0, _ => []
  | k + 1, s =>
    match runEngine s with
    | .next t => s.sequencer.toList ++ moveTrace k t
    | _ => []

/-- A register access that issues no COMPUTE. -/
def quietInstr : Instr → Bool
  | .wrCtrl c => cmdOp c != 0x1#4
  | _ => true

/-- A B word that has a meaning and issues no COMPUTE. -/
def quietAccess (w : BitVec 38) : Bool :=
  match decodeBus w with
  | .ok i => quietInstr i
  | .error _ => false

/-- A move of the host or the engine that leaves a transaction over `[base, base + n)` alone: a register access that
has a meaning and is not a COMPUTE, a memory access, a write outside the buffer, or a step of the engine. -/
def Event.quiet (base n : Nat) : Event → Bool
  | .access w => quietAccess w
  | .memWrite a _ => decide (a.toNat < base) || decide (base + n ≤ a.toNat)
  | .memRead _ => true
  | .engine => true
  | .bus _ | .micro _ | .select _ | .reset => false

end Sys2Proof.Machine
end

