-- ==== Sys2Proof/Certificates/Slice0/Obligations.lean ====
section
/-! DEFINITION. The statements for the provers. Each docstring names the rules of spec/ it formalises. -/

open Sys2Proof Sys2Proof.Machine

/-! ### Encodings -/

/-- 30 R63 to R70: decoding the word of a well-formed instruction gives the instruction back, with every operand at
every value the encoding admits. -/
def Obligations.DecodeEncodeRoundTrip : Prop :=
  ∀ i : Instr, i.wf = true → decode (encode i) = .ok i

/-- 30 R68, R69, R70: a word decodes to an instruction of a row exactly if it is of that row's length and equals the
row's pattern on the row's mask. So the words no row matches are the ones refused. -/
def Obligations.WordsDecodeByTheirRow : Prop :=
  ∀ (w : EncWord) (m : String),
    (∃ i, decode w = .ok i ∧ i.mnemonic = m) ↔ (∃ r ∈ opcodeRows, r.mnemonic = m ∧ r.matchesWord w = true)

/-- 30 R68: what the decoder gives is well-formed. -/
def Obligations.DecodedInstructionsAreWellFormed : Prop :=
  ∀ (w : EncWord) (i : Instr), decode w = .ok i → i.wf = true

/-- 30 R68, R69, R70: no two rows of the opcode map match one word. -/
def Obligations.OpcodeRowsNeverOverlap : Prop :=
  opcodeRows.Pairwise fun r q => ∀ w : EncWord, ¬ (r.matchesWord w = true ∧ q.matchesWord w = true)

/-- 95 V4.18 to V4.28 and the B words of P1: words written out from the encodings decode to what they stand for. -/
def Obligations.WrittenOutWordsDecode : Prop :=
  decode (.busAccess 0x2800002000#38) = .ok (.wrBase 0x00002000#32) ∧
  decode (.busAccess 0x1400000000#38) = .ok .rdResult ∧
  decode (.busAccess 0x3800000000#38) = .ok (.wrRsv 0x18#5 0#32) ∧
  decode (.busAccess 0x0100000000#38) = .error .misalignedAccess ∧
  decode (.busAccess 0x2600000000#38) = .error .misalignedAccess ∧
  decode (.busAccess 0x2000000101#38) = .ok (.wrCtrl 0x00000101#32) ∧
  decode (.busAccess 0x0400000000#38) = .ok .rdStatus ∧
  decode (.command 0x00000101#32) = .ok (.compute true) ∧
  decode (.command 0x00000001#32) = .ok (.compute false) ∧
  decode (.command 0x0000000F#32) = .error .reservedCommand ∧
  decode (.microOp 0x1A5#10) = .ok (.update 0xA5#8) ∧
  decode (.microOp 0x300#10) = .error .reservedMicroOp ∧
  decode (.microOp 0x201#10) = .error .reservedMicroOp

/-- 30 R71 items 1 and 2, R69; 40 R89: changing reserved bits 31:9 and 7:4 of a command word changes nothing about how
it decodes, BUFV does not select the command, and NOP ignores it; a reserved OP is ignored by the write to CTRL. -/
def Obligations.ReservedCommandBitsAreIgnored : Prop :=
  (∀ c x : BitVec 32, decodeCommand (c ^^^ (x &&& 0xFFFFFEF0#32)) = decodeCommand c) ∧
  (∀ c : BitVec 32, decodeCommand c = .ok .nop → decodeCommand (c ^^^ 0x100#32) = .ok .nop) ∧
  (∀ (c : BitVec 32) (b : Bool), decodeCommand c = .ok (.compute b) →
    decodeCommand (c ^^^ 0x100#32) = .ok (.compute (!b))) ∧
  (∀ (c : Word32) (s : State), decodeCommand c = .error .reservedCommand → exec (.wrCtrl c) s = .next s)

/-- 60 R120 and 20 R49: the two kinds of spelling without a meaning. A bus access inside an instance's window that is not
32 bits wide, or at an offset that is not a multiple of 4, and a B word with such an offset, is refused as
`REG_ACCESS_OTHER`; a reserved U word is refused, and the sequencer never produces one. -/
def Obligations.SpellingsWithoutMeaningAreRefused : Prop :=
  (∀ (s s' : State) (r : BusRequest) (rest : List Event), s.resetPin = false → s.inputs = .bus r :: rest →
    State.focus (windowOf r.addr) { s with inputs := rest } = some s' →
    (r.bits ≠ 32 ∨ r.addr.toNat % 4 ≠ 0) → step s = .refused .regAccessOther) ∧
  (∀ (s : State) (w : BitVec 38) (rest : List Event), s.resetPin = false → s.inputs = .access w :: rest →
    w.toNat / 2 ^ 32 % 4 ≠ 0 → step s = .refused .regAccessOther) ∧
  (∀ (s : State) (w : BitVec 10) (rest : List Event), s.resetPin = false → s.inputs = .micro w :: rest →
    (0x300 ≤ w.toNat ∨ (0x000 < w.toNat ∧ w.toNat < 0x100) ∨ (0x200 < w.toNat ∧ w.toNat < 0x300)) →
    step s = .refused .reservedMicroOp) ∧
  (∀ (s : State) (i : Instr), s.sequencer = some i → ∃ w : BitVec 10, encode i = .microOp w ∧
    decode (.microOp w) = .ok i)

/-- 30 R73, R74: the assembler lines as words, the `u.` forms by the words 0x000, `0x100 | imm8` and 0x200, which are the
words of INIT, UPDATE and FINISH; and the pseudo-instructions as sequences. `poll` is one read of STATUS and one more for
each time the host's loop goes round again. That a number outside -2^31..2^32-1 is taken modulo 2^32 is the model's
choice (assumption log 22). -/
def Obligations.AssemblerFormsEncode : Prop :=
  (∀ r : Reg, Asm.encoding (.rd r) = .busAccess (BitVec.ofNat 38 (r.offset.toNat * 2 ^ 32))) ∧
  (∀ (r : Reg) (v : Int), Asm.encoding (.wr r v) =
    .busAccess (BitVec.ofNat 38 (2 ^ 37 + r.offset.toNat * 2 ^ 32 + (v % 2 ^ 32).toNat))) ∧
  (Asm.encoding .uInit = .microOp 0x000#10 ∧ Asm.encoding .uInit = encode .init) ∧
  (∀ b : Byte, Asm.encoding (.uUpdate b) = .microOp (BitVec.ofNat 10 (0x100 + b.toNat)) ∧
    Asm.encoding (.uUpdate b) = encode (.update b)) ∧
  (Asm.encoding .uFinish = .microOp 0x200#10 ∧ Asm.encoding .uFinish = encode .finish) ∧
  Pseudo.expand .nop = [.wr .CTRL 0] ∧
  Pseudo.expand .compute = [.wr .CTRL 0x101] ∧
  Pseudo.expand .computeNobuf = [.wr .CTRL 0x001] ∧
  (∀ k : Nat, Pseudo.expand (.poll k) = List.replicate (k + 1) (.rd .STATUS)) ∧
  (∀ (b sz l : Int) (k : Nat), Pseudo.expand (.crc8 b sz l k) =
    [.wr .BASE b, .wr .SIZE sz, .wr .LEN l, .wr .CTRL 0x101] ++ List.replicate (k + 1) (.rd .STATUS)
      ++ [.rd .STATUS, .rd .RESULT])

/-! ### Steps run what the moves spell -/

/-- 40 R75, 41 R100, 30 R65: a step runs the instruction its next move decodes to. A B word runs exec of the
instruction it decodes to; the sequencer's move runs exec of the step the sequencer has; a U word runs exec of its
instruction where this state produces it. A step takes the move off the schedule and adds nothing else. A word placed by
withFetchWord is run so by the next step: a B word; a C word, as the write to CTRL that issues it, a reserved one changing
nothing; and a U word, in the state made ready for it, where it completes. Where a U word runs, the placing of words, and
the lengths by which withFetchWord tells the formats apart are the model's choices (assumption logs 3, 4 and 17). -/
def Obligations.StepRunsTheDecodedInstruction : Prop :=
  (∀ (s : State) (w : BitVec 38) (i : Instr) (rest : List Event), s.resetPin = false →
    s.inputs = .access w :: rest → decode (.busAccess w) = .ok i → step s = exec i { s with inputs := rest }) ∧
  (∀ (s : State) (i : Instr) (rest : List Event), s.resetPin = false →
    s.inputs = .engine :: rest → s.sequencer = some i → step s = exec i { s with inputs := rest }) ∧
  (∀ (s : State) (w : BitVec 10) (i : Instr) (rest : List Event), s.resetPin = false →
    s.inputs = .micro w :: rest → decode (.microOp w) = .ok i →
    (s.sequencer = some i ∨ (i = .init ∧ s.eng.BUSY = false)) → step s = exec i { s with inputs := rest }) ∧
  (∀ (s : State) (w : BitVec 38) (i : Instr) (nbits : Nat), nbits = 38 ∨ nbits = 40 → decode (.busAccess w) = .ok i →
    step (s.withFetchWord nbits w.toNat) = exec i { s with resetPin := false }) ∧
  (∀ (s : State) (c : BitVec 32),
    (∀ i, decode (.command c) = .ok i → step (s.withFetchWord 32 c.toNat) = exec i { s with resetPin := false }) ∧
    (decode (.command c) = .error .reservedCommand →
      step (s.withFetchWord 32 c.toNat) = .next { s with resetPin := false })) ∧
  (∀ (s : State) (nbits : Nat), nbits = 10 ∨ nbits = 16 →
    step (s.withFetchWord nbits 0x000) = exec .init { s.readyForInit with resetPin := false } ∧
    (∀ b : Byte, step (s.withFetchWord nbits (0x100 + b.toNat)) =
        exec (.update b) { s.readyForUpdate b with resetPin := false } ∧
      ∃ t, step (s.withFetchWord nbits (0x100 + b.toNat)) = .next t) ∧
    step (s.withFetchWord nbits 0x200) = exec .finish { s.readyForFinish with resetPin := false } ∧
    ∃ t, step (s.withFetchWord nbits 0x200) = .next t)

/-- 30 R63, 10 R27, R28, 20 R53, 60 R129: a 32-bit access at a bus address runs the B word with that address's OFF at the
instance whose window holds the address, whichever instance was addressed before, and leaves every other instance as it
was; a select move addresses the instance with its window and changes no instance. Wherever some instance has the window,
one is reached, and of it and the others none is changed by being addressed. At `ENGINE_BASE + OFF` of the instance that
is addressed already, it is the access of the B word. That one instance is addressed at a time, and the first where two
share a window, is the model's choice (assumption log 13). -/
def Obligations.BusAddressReachesItsWindow : Prop :=
  (∀ (s s' : State) (r : BusRequest) (i : Instr) (rest : List Event), s.resetPin = false →
    s.inputs = .bus r :: rest → r.bits = 32 → State.focus (windowOf r.addr) { s with inputs := rest } = some s' →
    decode (.busAccess (busWord r.write (offsetOf r.addr) r.data)) = .ok i →
    step s = exec i s' ∧ s'.engines = s.engines ∧ s'.eng.window = windowOf r.addr ∧
    ∀ t, step s = .next t → t.engines = s'.before.reverse ++ t.eng :: s'.after) ∧
  (∀ (s s' : State) (win : BitVec 27) (rest : List Event), s.resetPin = false → s.inputs = .select win :: rest →
    State.focus win { s with inputs := rest } = some s' →
    step s = .next s' ∧ s'.engines = s.engines ∧ s'.eng.window = win ∧ s'.inputs = rest ∧ s'.mem = s.mem ∧
    s'.rom = s.rom ∧ s'.admission = s.admission ∧ s'.readData = s.readData) ∧
  (∀ (s : State) (win : BitVec 27), (∃ e ∈ s.engines, e.window = win) → ∃ s', s.focus win = some s' ∧
    s'.engines = s.engines ∧ s'.eng.window = win ∧ ∀ e ∈ s'.before, e.window ≠ win) ∧
  (∀ (s : State) (off : BitVec 5) (w : Bool) (d : Word32) (rest : List Event), s.resetPin = false →
    (∀ e ∈ s.before, e.window ≠ s.eng.window) →
    s.inputs = .bus ⟨s.eng.engineBase + off.setWidth 32, 32, w, d⟩ :: rest →
    step s = step { s with inputs := .access (busWord w off d) :: rest })

/-! ### Register reads -/

/-- 40 R76, R82: CTRL and the reserved slots read 0 in every state, right after a COMPUTE or a write to them
included; the read changes nothing. -/
def Obligations.CtrlAndReservedSlotsReadZero : Prop :=
  decode (.busAccess 0x0000000000#38) = .ok .rdCtrl ∧
  decode (.busAccess 0x1800000000#38) = .ok (.rdRsv 0x18#5) ∧
  decode (.busAccess 0x1C00000000#38) = .ok (.rdRsv 0x1C#5) ∧
  ∀ s : State, exec .rdCtrl s = .next { s with readData := some 0x00000000#32 } ∧
    ∀ off : BitVec 5, off = 0x18#5 ∨ off = 0x1C#5 →
      exec (.rdRsv off) s = .next { s with readData := some 0x00000000#32 }

/-- 40 R78, R79, R80: BASE, SIZE and LEN read the value last written while BUSY = 0, or 0 after reset; LEN's raw 32
bits; the read changes nothing. -/
def Obligations.ParameterRegistersReadBack : Prop :=
  (decode (.busAccess 0x0800000000#38) = .ok .rdBase ∧ decode (.busAccess 0x0C00000000#38) = .ok .rdSize ∧
    decode (.busAccess 0x1000000000#38) = .ok .rdLen) ∧
  (∀ s : State, exec .rdBase s = .next { s with readData := some s.eng.BASE } ∧
    exec .rdSize s = .next { s with readData := some s.eng.SIZE } ∧
    exec .rdLen s = .next { s with readData := some s.eng.LEN }) ∧
  (∀ (s : State) (v : Word32), s.eng.BUSY = false →
    (∃ t, exec (.wrBase v) s = .next t ∧ exec .rdBase t = .next { t with readData := some v }) ∧
    (∃ t, exec (.wrSize v) s = .next t ∧ exec .rdSize t = .next { t with readData := some v }) ∧
    (∃ t, exec (.wrLen v) s = .next t ∧ exec .rdLen t = .next { t with readData := some v })) ∧
  (∀ s : State, exec .rdBase s.applyReset = .next { s.applyReset with readData := some 0#32 } ∧
    exec .rdSize s.applyReset = .next { s.applyReset with readData := some 0#32 } ∧
    exec .rdLen s.applyReset = .next { s.applyReset with readData := some 0#32 })

/-- 40 R77: STATUS reads `zext_32(ERR, 0b00, DONE, BUSY)`, as a number; the read clears nothing. Right after reset it
is 0; in a state that meets the invariant it is 1 at any point during a transaction; after a success 2, after
InvalidLength 0x12, after NullBuffer 0x22. -/
def Obligations.StatusReads : Prop :=
  decode (.busAccess 0x0400000000#38) = .ok .rdStatus ∧
  (∀ s : State, exec .rdStatus s =
    .next { s with
      readData := some (BitVec.ofNat 32 (s.eng.ERR.toNat * 16 + s.eng.DONE.toNat * 2 + s.eng.BUSY.toNat)) }) ∧
  (∀ s : State, exec .rdStatus s.applyReset = .next { s.applyReset with readData := some 0x00000000#32 }) ∧
  (∀ s : State, s.eng.Inv → s.eng.BUSY = true →
    exec .rdStatus s = .next { s with readData := some 0x00000001#32 }) ∧
  (∀ s : State, s.eng.BUSY = false → s.eng.DONE = true →
    (s.eng.ERR = 0x0#4 → exec .rdStatus s = .next { s with readData := some 0x00000002#32 }) ∧
    (s.eng.ERR = 0x1#4 → exec .rdStatus s = .next { s with readData := some 0x00000012#32 }) ∧
    (s.eng.ERR = 0x2#4 → exec .rdStatus s = .next { s with readData := some 0x00000022#32 }))

/-- 10 R30, R20: in a state that meets the invariant, STATUS reads one of the five legal values, each in its phase. -/
def Obligations.StatusHasFiveLegalValues : Prop :=
  ∀ s : State, s.eng.Inv → ∃ v, exec .rdStatus s = .next { s with readData := some v } ∧
    ((v = 0x00000000#32 ∧ s.eng.BUSY = false ∧ s.eng.DONE = false) ∨
     (v = 0x00000001#32 ∧ s.eng.BUSY = true ∧ s.eng.DONE = false) ∨
     (s.eng.BUSY = false ∧ s.eng.DONE = true ∧
       ((v = 0x00000002#32 ∧ s.eng.ERR = 0x0#4) ∨ (v = 0x00000012#32 ∧ s.eng.ERR = 0x1#4) ∨
        (v = 0x00000022#32 ∧ s.eng.ERR = 0x2#4))))

/-- 40 R81, 10 R34: RESULT reads the result byte, zero-extended, and the read does not clear it; in a state that meets
the invariant it reads 0 during BUSY, in IDLE and after an error. -/
def Obligations.ResultReads : Prop :=
  decode (.busAccess 0x1400000000#38) = .ok .rdResult ∧
  (∀ s : State, exec .rdResult s = .next { s with readData := some (BitVec.ofNat 32 s.eng.RESULT.toNat) }) ∧
  (∀ s : State, s.eng.Inv → (s.eng.BUSY = true ∨ s.eng.DONE = false ∨ s.eng.ERR ≠ 0x0#4) →
    exec .rdResult s = .next { s with readData := some 0x00000000#32 })

/-- 20 R46: the byte at offset + j of a register, j = 0..3, holds bits 8j+7 : 8j: the order is little-endian. -/
def Obligations.WindowBytesAreLittleEndian : Prop :=
  ∀ (e : Engine) (r : Reg) (j : Nat), j < 4 →
    (e.windowByte (r.offset + BitVec.ofNat 5 j)).toNat = (e.readReg r).toNat / 2 ^ (8 * j) % 2 ^ 8

/-! ### Register writes -/

/-- 40 R84, R85, R86: `if BUSY = 0 then REG <- v`, with nothing else changed, for any value; SIZE = 0 makes a COMPUTE
with a buffer and a positive length fail with InvalidLength, as a BASE near 2^32 can, and a negative LEN makes every
COMPUTE fail so. -/
def Obligations.ParameterWrites : Prop :=
  (∀ v : Word32, decode (.busAccess (0x2800000000#38 ||| v.setWidth 38)) = .ok (.wrBase v) ∧
    decode (.busAccess (0x2C00000000#38 ||| v.setWidth 38)) = .ok (.wrSize v) ∧
    decode (.busAccess (0x3000000000#38 ||| v.setWidth 38)) = .ok (.wrLen v)) ∧
  (∀ (s : State) (v : Word32),
    exec (.wrBase v) s =
      .next { s with eng := { s.eng with BASE := if s.eng.BUSY then s.eng.BASE else v } } ∧
    exec (.wrSize v) s =
      .next { s with eng := { s.eng with SIZE := if s.eng.BUSY then s.eng.SIZE else v } } ∧
    exec (.wrLen v) s =
      .next { s with eng := { s.eng with LEN := if s.eng.BUSY then s.eng.LEN else v } }) ∧
  (∀ (s : State) (v : Word32), s.eng.BUSY = false →
    (0 < sint32 s.eng.LEN → 2 ^ 32 < uint32 v + sint32 s.eng.LEN → ∃ t u, exec (.wrBase v) s = .next t ∧
      exec (.compute true) t = .next u ∧ u.eng.ERR = 0x1#4 ∧ u.eng.DONE = true) ∧
    (0 < sint32 s.eng.LEN → ∃ t u, exec (.wrSize 0#32) s = .next t ∧
      exec (.compute true) t = .next u ∧ u.eng.ERR = 0x1#4 ∧ u.eng.DONE = true) ∧
    (sint32 v < 0 → ∀ bufv, ∃ t u, exec (.wrLen v) s = .next t ∧
      exec (.compute bufv) t = .next u ∧ u.eng.ERR = 0x1#4 ∧ u.eng.DONE = true))

/-- 40 R87, R88: a write to STATUS, RESULT or a reserved slot changes no state; a reserved slot still reads 0. -/
def Obligations.ReadOnlyWritesAreIgnored : Prop :=
  (∀ v : Word32, decode (.busAccess (0x2400000000#38 ||| v.setWidth 38)) = .ok (.wrStatus v) ∧
    decode (.busAccess (0x3400000000#38 ||| v.setWidth 38)) = .ok (.wrResult v) ∧
    decode (.busAccess (0x3800000000#38 ||| v.setWidth 38)) = .ok (.wrRsv 0x18#5 v) ∧
    decode (.busAccess (0x3C00000000#38 ||| v.setWidth 38)) = .ok (.wrRsv 0x1C#5 v)) ∧
  (∀ (s : State) (v : Word32), exec (.wrStatus v) s = .next s ∧ exec (.wrResult v) s = .next s ∧
    ∀ off : BitVec 5, off = 0x18#5 ∨ off = 0x1C#5 → exec (.wrRsv off v) s = .next s ∧
      exec (.rdRsv off) s = .next { s with readData := some 0#32 })

/-! ### Commands -/

/-- 40 R89: a write to CTRL issues the command of its C word: OP = 0 is NOP, OP = 1 is COMPUTE with BUFV in bit 8, and
OP = 2..15 changes no state; bits 31:9 and 7:4 are ignored. It always completes, and CTRL keeps nothing. -/
def Obligations.CtrlWriteIssuesItsCommand : Prop :=
  (∀ c : Word32, decode (.busAccess (0x2000000000#38 ||| c.setWidth 38)) = .ok (.wrCtrl c)) ∧
  (∀ (s : State) (c : Word32),
    (c.toNat % 16 = 0 → exec (.wrCtrl c) s = .next s ∧ exec (.wrCtrl c) s = exec .nop s) ∧
    (c.toNat % 16 = 1 → exec (.wrCtrl c) s = exec (.compute (decide (c.toNat / 256 % 2 = 1))) s) ∧
    (2 ≤ c.toNat % 16 → exec (.wrCtrl c) s = .next s) ∧
    (∃ t, exec (.wrCtrl c) s = .next t ∧ exec .rdCtrl t = .next { t with readData := some 0#32 }))

/-- 40 R90: NOP changes nothing, in every phase, BUSY included; BUFV is ignored. -/
def Obligations.NopChangesNothing : Prop :=
  (∀ c : BitVec 32, c &&& 0x0000000F#32 = 0x00000000#32 → decode (.command c) = .ok .nop) ∧
  ∀ s : State, exec .nop s = .next s

/-- 40 R91: a COMPUTE written while BUSY = 1 changes no state. -/
def Obligations.ComputeWhileBusyIsIgnored : Prop :=
  ∀ (s : State) (bufv : Bool), s.eng.BUSY = true → exec (.compute bufv) s = .next s

/-- 60 R116, R123: InvalidLength, in each of its three cases, is an accept that reads nothing and changes exactly R, I,
RESULT, ERR, BUSY and DONE. Only COMPUTE raises it, at accept, in one of the three cases: any instruction that makes
ERR the code 0x1 is a COMPUTE, or the write to CTRL that issues one. -/
def Obligations.ComputeReportsInvalidLength : Prop :=
  (∀ (s : State) (bufv : Bool), s.eng.BUSY = false →
    (s.eng.LEN.toInt < 0 ∨
     (bufv = true ∧ (s.eng.SIZE.toNat : Int) < s.eng.LEN.toInt) ∨
     (bufv = true ∧ 0 ≤ s.eng.LEN.toInt ∧ s.eng.LEN.toInt ≤ s.eng.SIZE.toNat ∧
       2 ^ 32 < s.eng.BASE.toNat + s.eng.LEN.toInt)) →
    exec (.compute bufv) s = .next { s with eng := { s.eng with
      R := 0x00#8, I := 0#32, RESULT := 0x00#8, ERR := 0x1#4, BUSY := false, DONE := true } }) ∧
  (∀ (i : Instr) (s t : State), exec i s = .next t → t.eng.ERR ≠ s.eng.ERR → t.eng.ERR = 0x1#4 →
    s.eng.BUSY = false ∧ ∃ bufv,
      (i = .compute bufv ∨ ∃ c, i = .wrCtrl c ∧ decodeCommand c = .ok (.compute bufv)) ∧
      (s.eng.LEN.toInt < 0 ∨
       (bufv = true ∧ (s.eng.SIZE.toNat : Int) < s.eng.LEN.toInt) ∨
       (bufv = true ∧ 0 ≤ s.eng.LEN.toInt ∧ s.eng.LEN.toInt ≤ s.eng.SIZE.toNat ∧
         2 ^ 32 < s.eng.BASE.toNat + s.eng.LEN.toInt)))

/-- 60 R117: NullBuffer exactly for BUFV = 0 and a positive length; with length 0 the transaction succeeds with RESULT =
0x00, and with a negative length the error is InvalidLength. Only COMPUTE raises NullBuffer, at accept: any instruction
that makes ERR the code 0x2 is a COMPUTE with BUFV = 0 and a positive length, or the write to CTRL that issues it. -/
def Obligations.ComputeReportsNullBuffer : Prop :=
  (∀ s : State, s.eng.BUSY = false →
    (0 < s.eng.LEN.toInt → exec (.compute false) s = .next { s with eng := { s.eng with
      R := 0x00#8, I := 0#32, RESULT := 0x00#8, ERR := 0x2#4, BUSY := false, DONE := true } }) ∧
    (s.eng.LEN.toInt = 0 → exec (.compute false) s = .next { s with eng := { s.eng with
      R := 0x00#8, I := 0#32, RESULT := 0x00#8, ERR := 0x0#4, BUSY := false, DONE := true } }) ∧
    (s.eng.LEN.toInt < 0 → ∃ t, exec (.compute false) s = .next t ∧ t.eng.ERR = 0x1#4 ∧ t.eng.RESULT = 0x00#8)) ∧
  (∀ (i : Instr) (s t : State), exec i s = .next t → t.eng.ERR ≠ s.eng.ERR → t.eng.ERR = 0x2#4 →
    s.eng.BUSY = false ∧ 0 < s.eng.LEN.toInt ∧
      (i = .compute false ∨ ∃ c, i = .wrCtrl c ∧ decodeCommand c = .ok (.compute false)))

/-- 41 R107, 40 R93: a length of 0 completes inside the accept with RESULT = 0x00 whatever BUFV, BASE and SIZE are, for
every table, and leaves the engine with no step, so that no memory is read. -/
def Obligations.LengthZeroCompletesAtAccept : Prop :=
  (∀ T : Table, crc8 T [] = 0x00#8) ∧
  ∀ (s : State) (bufv : Bool), s.eng.BUSY = false → s.eng.LEN = 0#32 →
    ∃ t, exec (.compute bufv) s = .next t ∧ t = { s with eng := { s.eng with
      R := 0x00#8, I := 0#32, RESULT := 0x00#8, ERR := 0x0#4, BUSY := false, DONE := true } } ∧
      ∀ k, readTrace k t = []

/-- 40 R93, R92: an accepted COMPUTE with a buffer of n >= 1 bytes inside SIZE and the address space starts a
transaction. -/
def Obligations.ComputeStartsTransaction : Prop :=
  ∀ s : State, s.eng.BUSY = false → 1 ≤ s.eng.LEN.toInt → s.eng.LEN.toInt ≤ s.eng.SIZE.toNat →
    s.eng.BASE.toNat + s.eng.LEN.toInt ≤ 2 ^ 32 →
    exec (.compute true) s = .next { s with eng := { s.eng with
      R := 0x00#8, I := 0#32, RESULT := 0x00#8, ERR := 0x0#4, BUSY := true, DONE := false } }

/-- 40 R94, 60 R122 item 1: the answer of validation, exactly: which error is reported where several apply, and
when the length is accepted. -/
def Obligations.ValidationDecidesByTheFirstCheck : Prop :=
  ∀ (bufv : Bool) (base size len : Word32),
    (validate bufv base size len = .err .invalidLength ↔
      len.toInt < 0 ∨ (bufv = true ∧ (size.toNat : Int) < len.toInt) ∨
      (bufv = true ∧ 0 ≤ len.toInt ∧ 2 ^ 32 < base.toNat + len.toInt)) ∧
    (validate bufv base size len = .err .nullBuffer ↔ bufv = false ∧ 0 < len.toInt) ∧
    (∀ n : Nat, validate bufv base size len = .ok n ↔
      len.toInt = n ∧ ((bufv = false ∧ n = 0) ∨
        (bufv = true ∧ n ≤ size.toNat ∧ base.toNat + n ≤ 2 ^ 32)))

/-- 40 R95, R96: after complete_ok(v) STATUS reads 0x2 and RESULT reads v zero-extended; after complete_error(code)
STATUS reads 0x2 with the code in bits 7:4, and RESULT reads 0; both leave everything else. -/
def Obligations.CompletionsReport : Prop :=
  (∀ (e : Engine) (v : Byte),
    e.completeOk v = { e with RESULT := v, ERR := 0x0#4, BUSY := false, DONE := true } ∧
    (e.completeOk v).readReg .STATUS = 0x00000002#32 ∧
    (e.completeOk v).readReg .RESULT = v.setWidth 32) ∧
  (∀ (e : Engine) (c : ErrCode),
    e.completeError c = { e with RESULT := 0x00#8, ERR := c.code, BUSY := false, DONE := true } ∧
    (e.completeError c).readReg .STATUS = 0x00000002#32 ||| (c.code.setWidth 32 <<< 4) ∧
    (e.completeError c).readReg .RESULT = 0x00000000#32) ∧
  ErrCode.invalidLength.code = 0x1#4 ∧ ErrCode.nullBuffer.code = 0x2#4

/-! ### The lookup pipeline -/

/-- 41 R101: INIT clears R and I, and nothing else; it runs at every accept, the error and length-0 paths included. -/
def Obligations.InitClearsRemainderAndIndex : Prop :=
  decode (.microOp 0x000#10) = .ok .init ∧
  (∀ s : State, exec .init s = .next { s with eng := { s.eng with R := 0x00#8, I := 0#32 } }) ∧
  (∀ (s : State) (bufv : Bool), s.eng.BUSY = false →
    ∃ t, exec (.compute bufv) s = .next t ∧ t.eng.R = 0x00#8 ∧ t.eng.I = 0#32)

/-- 41 R102: where UPDATE is enabled and its read is admitted, it makes R the table entry at `b ^ R`, with the old R,
and adds 1 to I, which does not wrap; nothing else changes. With b = R the entry is T[0], with b = 0 it is T[R], and
with R = 0xC0 and b = 0x3F it is T[0xFF] (0x0C and 0x41 under TABLE_KNOWN). There the sequencer's step is UPDATE of
the byte read at BASE + I; where the read is not admitted the engine has no step. -/
def Obligations.UpdateFoldsOneByte : Prop :=
  (∀ b : Byte, decode (.microOp (0x100#10 ||| b.setWidth 10)) = .ok (.update b)) ∧
  (∀ (s : State) (b : Byte), s.eng.BUSY = true → s.eng.I.toNat < s.eng.LEN.toInt →
    s.eng.BASE.toNat + s.eng.I.toNat < 2 ^ 32 →
    admits s.admission (s.eng.BASE.toNat + s.eng.I.toNat) = true →
    ∃ t, exec (.update b) s = .next t ∧
      t = { s with eng := { s.eng with
        R := s.rom[(b ^^^ s.eng.R).toNat]'(b ^^^ s.eng.R).isLt, I := s.eng.I + 1#32 } } ∧
      t.eng.I.toNat = s.eng.I.toNat + 1 ∧
      (b = s.eng.R → t.eng.R = s.rom[0]) ∧
      (b = 0x00#8 → t.eng.R = s.rom[s.eng.R.toNat]'s.eng.R.isLt) ∧
      (s.eng.R = 0xC0#8 → b = 0x3F#8 → t.eng.R = s.rom[255]) ∧
      (TableKnown s.rom → (b = s.eng.R → t.eng.R = 0x0C#8) ∧
        (s.eng.R = 0xC0#8 → b = 0x3F#8 → t.eng.R = 0x41#8))) ∧
  (∀ s : State, s.eng.BUSY = true → s.eng.I.toNat < s.eng.LEN.toInt →
    s.eng.BASE.toNat + s.eng.I.toNat < 2 ^ 32 →
    (admits s.admission (s.eng.BASE.toNat + s.eng.I.toNat) = true →
      s.sequencer = some (.update (s.mem.byte (s.eng.BASE.toNat + s.eng.I.toNat)))) ∧
    (admits s.admission (s.eng.BASE.toNat + s.eng.I.toNat) = false → s.sequencer = none))

/-- 41 R102, R103, 20 R41: UPDATE and FINISH stop where 41 R100 does not enable them, and UPDATE stops where its read is
not admitted, or would be outside the address space. That the stop is this refusal or this fault is the model's
choice (assumption logs 5, 6, 7). -/
def Obligations.MicroOperationsStopWhereNotEnabled : Prop :=
  (∀ (s : State) (b : Byte), (s.eng.BUSY = false ∨ s.eng.LEN.toInt ≤ s.eng.I.toNat) →
    exec (.update b) s = .refused .microOpNotEnabled) ∧
  (∀ (s : State) (b : Byte), s.eng.BUSY = true → s.eng.I.toNat < s.eng.LEN.toInt →
    2 ^ 32 ≤ s.eng.BASE.toNat + s.eng.I.toNat → exec (.update b) s = .fault .readOutsideSpace) ∧
  (∀ (s : State) (b : Byte), s.eng.BUSY = true → s.eng.I.toNat < s.eng.LEN.toInt →
    s.eng.BASE.toNat + s.eng.I.toNat < 2 ^ 32 →
    admits s.admission (s.eng.BASE.toNat + s.eng.I.toNat) = false → exec (.update b) s = .fault .readNotAdmitted) ∧
  (∀ s : State, (s.eng.BUSY = false ∨ (s.eng.I.toNat : Int) ≠ s.eng.LEN.toInt) →
    exec .finish s = .refused .microOpNotEnabled)

/-- 41 R103: where FINISH is enabled it publishes R, with no final XOR, and completes; nothing else changes. The
sequencer's step is FINISH exactly there, and so, in a state that meets the invariant, never for a length of 0. -/
def Obligations.FinishPublishesRemainder : Prop :=
  decode (.microOp 0x200#10) = .ok .finish ∧
  (∀ s : State, s.eng.BUSY = true → (s.eng.I.toNat : Int) = s.eng.LEN.toInt →
    exec .finish s = .next { s with eng := { s.eng with
      RESULT := s.eng.R, ERR := 0x0#4, BUSY := false, DONE := true } }) ∧
  (∀ s : State, s.sequencer = some .finish ↔ s.eng.BUSY = true ∧ (s.eng.I.toNat : Int) = s.eng.LEN.toInt) ∧
  (∀ s : State, s.eng.Inv → s.sequencer = some .finish → s.eng.LEN ≠ 0#32)

/-- 41 R100: what the engine does on its own move, in every state with nothing else scheduled: UPDATE with the byte
read at `BASE + I`, FINISH, or no step. That an empty schedule gives it the move is the model's choice (assumption
log 2). -/
def Obligations.SequencerTakesItsOneEnabledStep : Prop :=
  ∀ s : State, s.resetPin = false → s.inputs = [] →
    (s.eng.BUSY = true → (s.eng.I.toNat : Int) < s.eng.LEN.toInt →
      s.eng.BASE.toNat + s.eng.I.toNat < 2 ^ 32 →
      admits s.admission (s.eng.BASE.toNat + s.eng.I.toNat) = true →
      step s = exec (.update (s.mem.byte (s.eng.BASE.toNat + s.eng.I.toNat))) s ∧ ∃ t, step s = .next t) ∧
    (s.eng.BUSY = true → (s.eng.I.toNat : Int) = s.eng.LEN.toInt →
      step s = exec .finish s ∧ ∃ t, step s = .next t) ∧
    (s.eng.BUSY = false → step s = .next s)

/-- 41 R104: the R that UPDATE writes is that of the general table-driven form for width 8: the index is
`b ^ (R >> (8 - 8))`, and the new R is `T[index] ^ (R << 8)` cut to 8 bits. -/
def Obligations.GeneralUpdateFormReducesForWidthEight : Prop :=
  ∀ (s : State) (b : Byte), s.eng.BUSY = true → s.eng.I.toNat < s.eng.LEN.toInt →
    s.eng.BASE.toNat + s.eng.I.toNat < 2 ^ 32 →
    admits s.admission (s.eng.BASE.toNat + s.eng.I.toNat) = true →
    ∃ t, exec (.update b) s = .next t ∧
      t.eng.R = s.rom[(b ^^^ (s.eng.R >>> (8 - 8))).toNat]'(b ^^^ (s.eng.R >>> (8 - 8))).isLt
        ^^^ BitVec.ofNat 8 (s.eng.R.toNat * 2 ^ 8)

/-! ### Transactions -/

/-- 41 R106: after the accept and k UPDATE steps, R is the fold of the first k bytes and I = k, and the transaction
is still in progress. The steps are the machine's with an empty schedule, which the model gives to the engine
(assumption log 2). -/
def Obligations.PartialTransactionHoldsThePrefixFold : Prop :=
  ∀ (s s1 : State) (n k : Nat), s.eng.BUSY = false → s.resetPin = false → s.inputs = [] →
    s.eng.LEN.toInt = n → 0 < n → n ≤ s.eng.SIZE.toNat → s.eng.BASE.toNat + n ≤ 2 ^ 32 →
    BufferAdmitted s s.eng.BASE.toNat n → exec (.compute true) s = .next s1 → k ≤ n →
    ∃ t, Host.Core.run core k s1 = .next t ∧ t.eng.R = crc8 s.rom (bufferBytes s.mem s.eng.BASE.toNat k) ∧
      t.eng.I.toNat = k ∧ t.eng.BUSY = true ∧ t.eng.DONE = false

/-- 41 R114, 40 R98: n + 1 engine steps after the accept, and not before, the transaction has ended with the
checksum in RESULT, no error, and everything but the instance's own state as it was. The steps are the machine's
with an empty schedule, which the model gives to the engine (assumption log 2). -/
def Obligations.TransactionComputesCrc : Prop :=
  ∀ (s s1 : State) (n : Nat), s.eng.BUSY = false → s.resetPin = false → s.inputs = [] →
    s.eng.LEN.toInt = n → 0 < n → n ≤ s.eng.SIZE.toNat → s.eng.BASE.toNat + n ≤ 2 ^ 32 →
    BufferAdmitted s s.eng.BASE.toNat n → exec (.compute true) s = .next s1 →
    Host.Core.run core (n + 1) s1 = .next { s with eng := { s.eng with
      R := crc8 s.rom (bufferBytes s.mem s.eng.BASE.toNat n), I := s.eng.LEN,
      BUSY := false, DONE := true, ERR := 0x0#4,
      RESULT := crc8 s.rom (bufferBytes s.mem s.eng.BASE.toNat n) } } ∧
    ∀ k t, k ≤ n → Host.Core.run core k s1 = .next t → t.eng.DONE = false

/-- 20 R42, 41 R109: a transaction of length n reads exactly BASE, BASE + 1, ..., BASE + n - 1, once each, in ascending
order, however many steps the engine is given. -/
def Obligations.TransactionReadsItsBufferOnceInOrder : Prop :=
  ∀ (s s1 : State) (n k : Nat), s.eng.BUSY = false →
    s.eng.LEN.toInt = n → 0 < n → n ≤ s.eng.SIZE.toNat → s.eng.BASE.toNat + n ≤ 2 ^ 32 →
    BufferAdmitted s s.eng.BASE.toNat n → exec (.compute true) s = .next s1 →
    readTrace (n + 1 + k) s1 = (List.range n).map fun j => s.eng.BASE.toNat + j

/-- 41 R100, R114: the sequencer produces UPDATE of each buffer byte in order, then FINISH, then no step. -/
def Obligations.SequencerProducesUpdatesThenFinish : Prop :=
  ∀ (s s1 : State) (n k : Nat), s.eng.BUSY = false →
    s.eng.LEN.toInt = n → 0 < n → n ≤ s.eng.SIZE.toNat → s.eng.BASE.toNat + n ≤ 2 ^ 32 →
    BufferAdmitted s s.eng.BASE.toNat n → exec (.compute true) s = .next s1 →
    moveTrace (n + 1 + k) s1 =
      (bufferBytes s.mem s.eng.BASE.toNat n).map Instr.update ++ [.finish]

/-- 40 R98: the outcome of a transaction with the host's moves between its steps. If every scheduled move is quiet
(no reset, no COMPUTE, no host write inside the buffer) and every read is admitted, the transaction ends: with the
error's code and RESULT = 0x00 where validation answers an error, and with no error and the fold of the buffer's
bytes at the accept where it answers Ok(n). That the order of moves is a list, after which the engine moves, is the
model's choice (assumption logs 1 and 2). -/
def Obligations.InterleavedTransactionHasTheContractsOutcome : Prop :=
  ∀ (s s1 : State) (bufv : Bool), s.eng.BUSY = false → s.resetPin = false →
    exec (.compute bufv) s = .next s1 →
    (∀ c, validate bufv s.eng.BASE s.eng.SIZE s.eng.LEN = .err c →
      s1.eng.DONE = true ∧ s1.eng.BUSY = false ∧ s1.eng.ERR = c.code ∧ s1.eng.RESULT = 0x00#8) ∧
    (∀ n, validate bufv s.eng.BASE s.eng.SIZE s.eng.LEN = .ok n → BufferAdmitted s s.eng.BASE.toNat n →
      (∀ ev ∈ s.inputs, ev.quiet s.eng.BASE.toNat n = true) →
      ∃ t, Host.Core.run core (s.inputs.length + (n + 1)) s1 = .next t ∧
        t.eng.DONE = true ∧ t.eng.BUSY = false ∧ t.eng.ERR = 0x0#4 ∧
        t.eng.RESULT = crc8 s.rom (bufferBytes s.mem s.eng.BASE.toNat n))

/-- 41 R108, R109: the outcome depends on T, BUFV, BASE, SIZE, LEN and the bytes of the buffer alone: two machines
that agree on these show the same STATUS and RESULT after the accept and any number of engine steps, whatever else
they hold. The steps are the machine's with an empty schedule, which the model gives to the engine (assumption log
2). -/
def Obligations.OutcomeDependsOnTheBufferAlone : Prop :=
  ∀ (s s' s1 s1' : State) (bufv : Bool) (k : Nat), s.eng.BUSY = false → s'.eng.BUSY = false →
    s.resetPin = false → s'.resetPin = false → s.inputs = [] → s'.inputs = [] →
    s.eng.BASE = s'.eng.BASE → s.eng.SIZE = s'.eng.SIZE → s.eng.LEN = s'.eng.LEN → s.rom = s'.rom →
    (∀ j : Nat, (j : Int) < s.eng.LEN.toInt →
      s.mem.byte (s.eng.BASE.toNat + j) = s'.mem.byte (s.eng.BASE.toNat + j) ∧
      admits s.admission (s.eng.BASE.toNat + j) = admits s'.admission (s.eng.BASE.toNat + j)) →
    exec (.compute bufv) s = .next s1 → exec (.compute bufv) s' = .next s1' →
    ∃ t t', Host.Core.run core k s1 = .next t ∧ Host.Core.run core k s1' = .next t' ∧
      t.eng.readReg .STATUS = t'.eng.readReg .STATUS ∧ t.eng.readReg .RESULT = t'.eng.readReg .RESULT

/-- 10 R18, 41 R108: an accepted COMPUTE forgets R, I, RESULT, ERR and DONE: two instances that differ only in these
are the same after it. -/
def Obligations.AcceptForgetsThePast : Prop :=
  ∀ (s : State) (bufv : Bool) (r res : Byte) (i : Word32) (d : Bool) (err : BitVec 4), s.eng.BUSY = false →
    exec (.compute bufv) { s with eng := { s.eng with R := r, I := i, RESULT := res, ERR := err, DONE := d } } =
      exec (.compute bufv) s

/-- 41 R110: the fold over two pieces continues from the first piece's, and a second transaction, which starts from
0x00, is in general not that. -/
def Obligations.ChecksumsDoNotChain : Prop :=
  (∀ (T : Table) (s1 s2 : List Byte),
    crc8 T (s1 ++ s2) = s2.foldl (fun r b => lookup T (tableIndex b r)) (crc8 T s1)) ∧
  (∀ T : Table, TableKnown T → crc8 T [0x00#8] = 0x0C#8 ∧ crc8 T ([0x00#8] ++ [0x00#8]) = 0xC0#8)

/-- 41 R111: appending the remainder gives T[0x00], which under TABLE_KNOWN is 0x0C, not 0x00. -/
def Obligations.AppendedRemainderGivesEntryZero : Prop :=
  (∀ (T : Table) (bs : List Byte), crc8 T (bs ++ [crc8 T bs]) = lookup T 0x00#8) ∧
  (∀ (T : Table) (bs : List Byte), TableKnown T → crc8 T (bs ++ [crc8 T bs]) = 0x0C#8)

/-! ### The whole machine -/

/-- 10 R38: every step of every agent keeps the invariants of R38 on every instance, and memory's canonical form.
The canonical form of memory is the model's own (assumption log 8). -/
def Obligations.EveryStepKeepsTheInvariants : Prop :=
  ∀ s t : State, s.Inv → step s = .next t → t.Inv

/-- 10 R38: the reset state meets the invariants. The canonical form of memory is the model's own (assumption log
8). -/
def Obligations.ResetStateMeetsTheInvariants : Prop := State.reset.Inv

/-- 10 R22, R23, R27, 20 R53: no step of any agent, reset included, changes the table ROM, the platform's admission, the
number of instances or where their windows stand. That admission stays the same in time is the model's choice (assumption
log 11). -/
def Obligations.RomAndPlatformNeverChange : Prop :=
  ∀ s t : State, step s = .next t → t.rom = s.rom ∧ t.admission = s.admission ∧
    t.engines.map Engine.window = s.engines.map Engine.window

/-- 20 R40, R55: only the host writes host memory: a step changes the byte a host write names, to the value it
writes, and no other byte; every other step changes no byte. That a host write is one byte is the model's choice
(assumption log 21). -/
def Obligations.OnlyTheHostWritesMemory : Prop :=
  ∀ s t : State, step s = .next t →
    (∃ a v, s.nextEvent.1 = .memWrite a v ∧ t.mem.byte a.toNat = v ∧
      ∀ b, b ≠ a.toNat → t.mem.byte b = s.mem.byte b) ∨
    (∀ b, t.mem.byte b = s.mem.byte b)

/-- 20 R55: a host read of memory, right after a host write to the same byte, returns the byte written; right after
a host write to another byte it returns what it would have returned before; and the engines do not change. That the
host's own accesses always complete, that each is one byte, so that different addresses never overlap, and that a
read returns the byte zero-extended to 32 bits are the model's choices (assumption logs 20, 21 and 14). -/
def Obligations.HostMemoryReadsSeeTheLastWrite : Prop :=
  ∀ (s : State) (a b : Addr) (v : Byte) (rest : List Event), s.resetPin = false →
    s.inputs = .memWrite a v :: .memRead b :: rest →
    ∃ t, Host.Core.run core 2 s = .next t ∧ t.engines = s.engines ∧ t.inputs = rest ∧
      t.readData = some ((if b = a then v else s.mem.byte b.toNat).setWidth 32)

/-- 20 R40, R52, 10 R27, R28, 60 R126: an instruction that gives a next state leaves every byte of memory, the ROM, the
platform's parameters, the other instances, the schedule and the instance's place alone, and only a read changes what
the host was last returned. -/
def Obligations.InstructionsChangeOnlyTheirInstance : Prop :=
  ∀ (i : Instr) (s t : State), exec i s = .next t →
    (∀ a, t.mem.byte a = s.mem.byte a) ∧ t.rom = s.rom ∧ t.admission = s.admission ∧
    t.before = s.before ∧ t.after = s.after ∧ t.inputs = s.inputs ∧ t.resetPin = s.resetPin ∧
    t.eng.window = s.eng.window ∧
    ((∀ off, i ≠ .rdRsv off) → i ≠ .rdCtrl → i ≠ .rdStatus → i ≠ .rdBase → i ≠ .rdSize → i ≠ .rdLen →
      i ≠ .rdResult → t.readData = s.readData)

/-- 40 R83, R87 to R91, 20 R52: while BUSY = 1, no register access of the host and no command changes anything in the
instance, and each completes. -/
def Obligations.HostCannotDisturbARunningTransaction : Prop :=
  ∀ (w : BitVec 38) (i : Instr) (s : State), s.eng.BUSY = true → decode (.busAccess w) = .ok i →
    ∃ t, exec i s = .next t ∧ t.eng = s.eng ∧ t.mem = s.mem

/-- 40 R83: the parameter registers of an instance stay constant from an accept to FINISH, whatever the agents do but
reset. -/
def Obligations.ParametersStayConstantWhileBusy : Prop :=
  ∀ (s t : State) (k : Nat) (e : Engine), step s = .next t → s.nextEvent.1 ≠ .reset →
    s.engines[k]? = some e → e.BUSY = true →
    ∃ e', t.engines[k]? = some e' ∧ e'.BASE = e.BASE ∧ e'.SIZE = e.SIZE ∧ e'.LEN = e.LEN

/-- 10 R20, R21: an instance leaves IDLE only by an accepted COMPUTE and then moves only between BUSY and DONE until the
next reset: from IDLE to BUSY or DONE, from BUSY to DONE only by FINISH with every byte folded, never back to IDLE. -/
def Obligations.PhaseMovesOnlyAsTheRulesSay : Prop :=
  ∀ (s t : State) (k : Nat) (e : Engine), step s = .next t → s.nextEvent.1 ≠ .reset →
    s.engines[k]? = some e →
    ∃ e', t.engines[k]? = some e' ∧
      (e.BUSY = false ∧ e.DONE = false → (e'.BUSY = false ∧ e'.DONE = false) ∨ ∃ bufv, e' = e.accept bufv) ∧
      (e.BUSY = true → e'.BUSY = true ∨
        (e'.BUSY = false ∧ e'.DONE = true ∧ e'.RESULT = e.R ∧ (e.I.toNat : Int) = e.LEN.toInt)) ∧
      (e.BUSY = false ∧ e.DONE = true → (e'.BUSY = false ∧ e'.DONE = true) ∨
        (e'.BUSY = true ∧ e'.DONE = false ∧ ∃ bufv, e' = e.accept bufv))

/-- 60 R116, R117, R124, 10 R21: an error code appears only by an accepted COMPUTE that validation rejects, and stays
until the next accept or reset. -/
def Obligations.ErrorsComeOnlyFromAccept : Prop :=
  ∀ (s t : State) (k : Nat) (e : Engine), step s = .next t → s.nextEvent.1 ≠ .reset → e.Inv →
    s.engines[k]? = some e →
    ∃ e', t.engines[k]? = some e' ∧ (e'.ERR ≠ e.ERR →
      e.BUSY = false ∧ ∃ bufv, e' = e.accept bufv ∧
        ((∃ c, validate bufv e.BASE e.SIZE e.LEN = .err c ∧ e'.ERR = c.code) ∨ e'.ERR = 0x0#4))

/-- 70 R139, 10 R21, 20 R57: once DONE, RESULT, ERR and DONE stay as they are through every step of every agent but an
accepted COMPUTE and reset. -/
def Obligations.OutcomeStaysUntilTheNextAccept : Prop :=
  ∀ (s t : State) (k : Nat) (e : Engine), step s = .next t → s.nextEvent.1 ≠ .reset →
    s.engines[k]? = some e → e.BUSY = false → e.DONE = true →
    ∃ e', t.engines[k]? = some e' ∧
      ((e'.RESULT = e.RESULT ∧ e'.ERR = e.ERR ∧ e'.DONE = true ∧ e'.BUSY = false) ∨ ∃ bufv, e' = e.accept bufv)

/-- 60 R119: an instance whose next read is not admitted has no step of its own and stays as it is, BUSY with R and I
unchanged and no error code, through every step of every agent but reset; if it meets the invariant, STATUS reads
0x00000001. -/
def Obligations.UnadmittedReadIsStuckUntilReset : Prop :=
  ∀ (s t : State) (k : Nat) (e : Engine), step s = .next t → s.engines[k]? = some e → StuckIn s e →
    (s.nextEvent.1 ≠ .reset → t.engines[k]? = some e ∧ StuckIn t e) ∧
    (s.nextEvent.1 = .reset → t.engines[k]? = some (Engine.resetAt e.window)) ∧
    (e = s.eng → s.sequencer = none) ∧
    (e.Inv → e.readReg .STATUS = 0x00000001#32)

/-- 70 R132, 60 R122 item 3, R129: reset, asserted together with any other move or as the next move, sets every
element of every instance to its reset value, and leaves the ROM, host memory and the platform alone. The pin, and
that the other moves stay scheduled, are the model's choices (assumption log 15). -/
def Obligations.ResetTakesPrecedenceAndClearsEveryInstance : Prop :=
  ∀ s : State, (s.resetPin = true ∨ ∃ rest, s.inputs = .reset :: rest) →
    ∃ t, step s = .next t ∧
      (∀ e ∈ t.engines, e.R = 0x00#8 ∧ e.I = 0#32 ∧ e.BUSY = false ∧ e.DONE = false ∧ e.BASE = 0#32 ∧
        e.SIZE = 0#32 ∧ e.LEN = 0#32 ∧ e.ERR = 0x0#4 ∧ e.RESULT = 0x00#8 ∧ e.readReg .STATUS = 0#32) ∧
      t.engines.length = s.engines.length ∧ t.rom = s.rom ∧ t.mem = s.mem ∧ t.admission = s.admission ∧
      t.resetPin = false ∧ (s.resetPin = true → t.inputs = s.inputs)

/-- 10 R15, 70 R132, R133: the values of the reset state, and that from it, with nothing scheduled, the engine waits.
That one instance stands there (the spec's default), that memory lists nothing, and that a step with an empty schedule
goes to the engine, which leaves the state as it is where it has no step, are the model's choices (assumption logs 13, 8
and 2). -/
def Obligations.ResetStateWaitsInIdle : Prop :=
  (∀ r : Reg, State.reset.eng.readReg r = 0x00000000#32) ∧ State.reset.eng.R = 0x00#8 ∧ State.reset.eng.I = 0#32 ∧
  State.reset.eng.BUSY = false ∧ State.reset.eng.DONE = false ∧ State.reset.engines.length = 1 ∧
  State.reset.mem = [] ∧ step State.reset = .next State.reset

/-- 70 R134: a COMPUTE issued straight after reset succeeds with RESULT = 0x00 whatever BUFV is. -/
def Obligations.ComputeStraightAfterResetSucceeds : Prop :=
  ∀ (s : State) (bufv : Bool), ∃ t, exec (.compute bufv) s.applyReset = .next t ∧
    t.eng.DONE = true ∧ t.eng.BUSY = false ∧ t.eng.ERR = 0x0#4 ∧ t.eng.RESULT = 0x00#8 ∧ t.mem = s.mem

/-- THE MODEL'S CHOICE (assumption log 19), about terms no word decodes to: RD_RSV and WR_RSV with any offset act as on a
reserved slot, as 40 R82 and R88 say for 0x18 and 0x1C. -/
def Obligations.ReservedAccessTermsActAsReservedSlots : Prop :=
  ∀ (s : State) (v : Word32) (off : BitVec 5), exec (.rdRsv off) s = .next { s with readData := some 0#32 } ∧
    exec (.wrRsv off v) s = .next s
end

