-- ==== Sys2Proof/Laws/Encoding.lean ====
section
/-! SUPPORT. The fields of a word built from fields, for each format (spec 30_encoding R63 to R65). -/

namespace Sys2Proof

theorem busW_busWord (w : Bool) (off : BitVec 5) (v : Word32) : busW (busWord w off v) = w := by
  simp [busW, busWord]

theorem busOff_busWord (w : Bool) (off : BitVec 5) (v : Word32) : busOff (busWord w off v) = off := by
  ext i hi
  have h1 : 32 + i < 38 := by omega
  have h2 : 32 + i < 37 := by omega
  simp [busOff, busWord, h1, h2, BitVec.getLsbD_eq_getElem hi]

theorem busData_busWord (w : Bool) (off : BitVec 5) (v : Word32) : busData (busWord w off v) = v := by
  ext i hi
  have h1 : i < 38 := by omega
  have h2 : i < 37 := by omega
  simp [busData, busWord, h1, h2, hi]

theorem microUop_microWord (u : BitVec 2) (b : Byte) : microUop (microWord u b) = u := by
  ext i hi
  have h1 : 8 + i < 10 := by omega
  simp [microUop, microWord, h1, BitVec.getLsbD_eq_getElem hi]

theorem microData_microWord (u : BitVec 2) (b : Byte) : microData (microWord u b) = b := by
  ext i hi
  have h1 : i < 10 := by omega
  simp [microData, microWord, h1, hi]

theorem cmdOp_commandWord (bufv : Bool) (op : BitVec 4) : cmdOp (commandWord bufv op) = op := by
  ext i hi
  have h1 : i < 32 := by omega
  have h2 : i < 8 := by omega
  simp [cmdOp, commandWord, h1, h2, BitVec.getLsbD_eq_getElem hi]

theorem cmdBufv_commandWord (bufv : Bool) (op : BitVec 4) : cmdBufv (commandWord bufv op) = bufv := by
  simp [cmdBufv, commandWord]

/-- A B word decodes by its fields alone. -/
theorem decodeBus_busWord (w : Bool) (off : BitVec 5) (v : Word32) :
    decodeBus (busWord w off v) = if w then decodeWrite off v else decodeRead off := by
  simp [decodeBus, busW_busWord, busOff_busWord, busData_busWord]

/-- A B word is the word of its three fields (30 R63). -/
theorem busWord_fields (w : BitVec 38) : busWord (busW w) (busOff w) (busData w) = w := by
  ext i hi
  rcases Nat.lt_or_ge i 32 with h | h
  · have h1 : i < 37 := by omega
    simp [busWord, busW, busOff, busData, h, h1, hi]
  · rcases Nat.lt_or_ge i 37 with h' | h'
    · have h1 : ¬ i < 32 := by omega
      have h2 : i - 32 < 5 := by omega
      have h3 : 32 + (i - 32) = i := by omega
      simp [busWord, busW, busOff, busData, h1, h2, h', hi, h3]
    · have : i = 37 := by omega
      subst this
      simp [busWord, busW, busOff, busData]

/-- A mask that looks only at the bits from `e` on sees only the part of a number above bit `e`. -/
theorem and_high_mask (e k m v : Nat) (hv : v < 2 ^ e) : (k * 2 ^ e + v) &&& (m * 2 ^ e) = (k &&& m) * 2 ^ e := by
  rw [← Nat.shiftLeft_eq, ← Nat.shiftLeft_eq, ← Nat.shiftLeft_eq, Nat.shiftLeft_add_eq_or_of_lt hv]
  apply Nat.eq_of_testBit_eq
  intro i
  simp only [Nat.testBit_and, Nat.testBit_or, Nat.testBit_shiftLeft]
  rcases Nat.lt_or_ge i e with h | h
  · simp [show ¬ (e ≤ i) by omega]
  · simp [h, Nat.testBit_lt_two_pow (lt_of_lt_of_le hv (Nat.pow_le_pow_right (by decide) h))]

/-- A B word as a number: its fields side by side (30 R63). -/
theorem toNat_busWord (w : Bool) (off : BitVec 5) (v : Word32) :
    (busWord w off v).toNat = (w.toNat * 2 ^ 5 + off.toNat) * 2 ^ 32 + v.toNat := by
  have hv := v.isLt
  have ho := off.isLt
  have hw : w.toNat < 2 := by cases w <;> decide
  have h1 : (w.toNat <<< 37 % 2 ^ 38) = w.toNat <<< 37 := Nat.mod_eq_of_lt (by rw [Nat.shiftLeft_eq]; omega)
  have h2 : (off.toNat <<< 32 % 2 ^ 38) = off.toNat <<< 32 := Nat.mod_eq_of_lt (by rw [Nat.shiftLeft_eq]; omega)
  have h3 : w.toNat <<< 37 ||| off.toNat <<< 32 = w.toNat <<< 37 + off.toNat <<< 32 :=
    (Nat.shiftLeft_add_eq_or_of_lt (by rw [Nat.shiftLeft_eq]; omega) _).symm
  have h4 : w.toNat <<< 37 + off.toNat <<< 32 = (w.toNat * 2 ^ 5 + off.toNat) <<< 32 := by
    simp only [Nat.shiftLeft_eq]; omega
  simp only [busWord, BitVec.toNat_or, BitVec.toNat_shiftLeft, BitVec.toNat_setWidth, BitVec.toNat_ofBool]
  rw [Nat.mod_eq_of_lt (show w.toNat < 2 ^ 38 by omega), Nat.mod_eq_of_lt (show off.toNat < 2 ^ 38 by omega),
    Nat.mod_eq_of_lt (show v.toNat < 2 ^ 38 by omega), h1, h2, h3, h4, ← Nat.shiftLeft_add_eq_or_of_lt hv,
    Nat.shiftLeft_eq]

/-- A C word as a number (30 R64). -/
theorem toNat_commandWord (bufv : Bool) (op : BitVec 4) :
    (commandWord bufv op).toNat = bufv.toNat * 2 ^ 8 + op.toNat := by
  have ho := op.isLt
  have hb : bufv.toNat < 2 := by cases bufv <;> decide
  have h1 : bufv.toNat <<< 8 % 2 ^ 32 = bufv.toNat <<< 8 := Nat.mod_eq_of_lt (by rw [Nat.shiftLeft_eq]; omega)
  simp only [commandWord, BitVec.toNat_or, BitVec.toNat_shiftLeft, BitVec.toNat_setWidth, BitVec.toNat_ofBool]
  rw [Nat.mod_eq_of_lt (show bufv.toNat < 2 ^ 32 by omega), Nat.mod_eq_of_lt (show op.toNat < 2 ^ 32 by omega), h1,
    ← Nat.shiftLeft_add_eq_or_of_lt (by omega), Nat.shiftLeft_eq]

/-- A U word as a number (30 R65). -/
theorem toNat_microWord (u : BitVec 2) (b : Byte) : (microWord u b).toNat = u.toNat * 2 ^ 8 + b.toNat := by
  have hu := u.isLt
  have hb := b.isLt
  have h1 : u.toNat <<< 8 % 2 ^ 10 = u.toNat <<< 8 := Nat.mod_eq_of_lt (by rw [Nat.shiftLeft_eq]; omega)
  simp only [microWord, BitVec.toNat_or, BitVec.toNat_shiftLeft, BitVec.toNat_setWidth]
  rw [Nat.mod_eq_of_lt (show u.toNat < 2 ^ 10 by omega), Nat.mod_eq_of_lt (show b.toNat < 2 ^ 10 by omega), h1,
    ← Nat.shiftLeft_add_eq_or_of_lt hb, Nat.shiftLeft_eq]

/-- The mask of format B's rows looks at W and OFF only (30 R68). -/
theorem busWord_masked (w : Bool) (off : BitVec 5) (v : Word32) :
    (busWord w off v).toNat &&& 0x3F00000000 = ((w.toNat * 2 ^ 5 + off.toNat) &&& 0x3F) * 2 ^ 32 := by
  rw [toNat_busWord]
  exact and_high_mask 32 _ 0x3F _ v.isLt

/-- The mask of the reserved slots' rows leaves OFF's bit 2 free as well (30 R68). -/
theorem busWord_masked_rsv (w : Bool) (off : BitVec 5) (v : Word32) :
    (busWord w off v).toNat &&& 0x3B00000000 = ((w.toNat * 2 ^ 5 + off.toNat) &&& 0x3B) * 2 ^ 32 := by
  rw [toNat_busWord]
  exact and_high_mask 32 _ 0x3B _ v.isLt

/-- The mask of format C's rows looks at OP only (30 R69). -/
theorem commandWord_masked (bufv : Bool) (op : BitVec 4) : (commandWord bufv op).toNat &&& 0x0000000F = op.toNat := by
  have ho := op.isLt
  have h := Nat.and_two_pow_sub_one_eq_mod (commandWord bufv op).toNat 4
  rw [toNat_commandWord] at h ⊢
  refine h.trans ?_
  omega

/-- The mask of UPDATE's row looks at UOP only (30 R70). -/
theorem microWord_masked (u : BitVec 2) (b : Byte) : (microWord u b).toNat &&& 0x300 = (u.toNat &&& 0x3) * 2 ^ 8 := by
  rw [toNat_microWord]
  exact and_high_mask 8 _ 0x3 _ b.isLt

end Sys2Proof
end

