-- ==== Sys2Proof/Laws/Memory.lean ====
section
/-! SUPPORT. Host memory: a read after a write, and the canonical form (spec 20 R39, R55). -/

namespace Sys2Proof.Machine

@[simp] theorem Memory.get?_nil (a : Nat) : Memory.get? [] a = none := rfl

theorem Memory.get?_set (m : Memory) (a b : Nat) (v : Byte) :
    (m.set a v).get? b = if a = b then some v else m.get? b := by
  induction m with
  | nil => simp [Memory.set, Memory.get?]
  | cons c m ih =>
    obtain ⟨k, u⟩ := c
    simp only [Memory.set]
    split
    · simp [Memory.get?]
    · split
      · subst_vars
        simp only [Memory.get?]
        split <;> rfl
      · simp only [Memory.get?, ih]
        split <;> split <;> first | rfl | omega

/-- A read returns the last value written to that byte (20 R55). -/
theorem Memory.byte_set_same (m : Memory) (a : Nat) (v : Byte) : (m.set a v).byte a = v := by
  simp [Memory.byte, Memory.get?_set]

/-- A write leaves every other byte alone. -/
theorem Memory.byte_set_other (m : Memory) {a b : Nat} (v : Byte) (h : a ≠ b) : (m.set a v).byte b = m.byte b := by
  simp [Memory.byte, Memory.get?_set, h]

theorem Memory.wfFrom_set (m : Memory) (lo a : Nat) (v : Byte) (hlo : lo ≤ a) (ha : a < Config.addrSpace)
    (h : Memory.wfFrom lo m = true) : Memory.wfFrom lo (m.set a v) = true := by
  induction m generalizing lo with
  | nil => simp [Memory.set, Memory.wfFrom, hlo, ha]
  | cons c m ih =>
    obtain ⟨k, u⟩ := c
    simp only [Memory.wfFrom, Bool.and_eq_true, decide_eq_true_eq] at h
    simp only [Memory.set]
    split
    · simp only [Memory.wfFrom, Bool.and_eq_true, decide_eq_true_eq]
      exact ⟨⟨hlo, ha⟩, ⟨by omega, h.1.2⟩, h.2⟩
    · split
      · subst_vars
        simp only [Memory.wfFrom, Bool.and_eq_true, decide_eq_true_eq]
        exact h
      · simp only [Memory.wfFrom, Bool.and_eq_true, decide_eq_true_eq]
        exact ⟨h.1, ih (k + 1) (by omega) h.2⟩

/-- A host write keeps the canonical form. -/
theorem Memory.wf_set (m : Memory) (a : Addr) (v : Byte) (h : m.wf = true) :
    Memory.wf (Memory.set m a.toNat v) = true :=
  Memory.wfFrom_set m 0 a.toNat v (Nat.zero_le _) (by have := a.isLt; simpa [Config.addrSpace] using this) h

theorem Memory.wf_nil : Memory.wf [] = true := rfl

/-- A read that completes returns the byte at the address, which is inside the space and admitted (20 R41). -/
theorem State.memRead_eq_some (s : State) (a : Nat) (b : Byte) :
    s.memRead a = some b ↔ a < Config.addrSpace ∧ admits s.admission a = true ∧ s.mem.byte a = b := by
  unfold State.memRead
  split <;> simp_all

end Sys2Proof.Machine
end

