-- ==== Sys2Proof/Laws/State.lean ====
section
/-! SUPPORT. What each named update of an instance and of the state does to each field, so that no later proof unfolds
a record update. -/

namespace Sys2Proof.Machine

@[simp] theorem Engine.initRegs_R (e : Engine) : (e.initRegs).R = Config.crcInit := rfl
@[simp] theorem Engine.initRegs_I (e : Engine) : (e.initRegs).I = 0x00000000#32 := rfl
@[simp] theorem Engine.initRegs_BUSY (e : Engine) : (e.initRegs).BUSY = e.BUSY := rfl
@[simp] theorem Engine.initRegs_DONE (e : Engine) : (e.initRegs).DONE = e.DONE := rfl
@[simp] theorem Engine.initRegs_ERR (e : Engine) : (e.initRegs).ERR = e.ERR := rfl
@[simp] theorem Engine.initRegs_BASE (e : Engine) : (e.initRegs).BASE = e.BASE := rfl
@[simp] theorem Engine.initRegs_SIZE (e : Engine) : (e.initRegs).SIZE = e.SIZE := rfl
@[simp] theorem Engine.initRegs_LEN (e : Engine) : (e.initRegs).LEN = e.LEN := rfl
@[simp] theorem Engine.initRegs_RESULT (e : Engine) : (e.initRegs).RESULT = e.RESULT := rfl
@[simp] theorem Engine.initRegs_window (e : Engine) : (e.initRegs).window = e.window := rfl

@[simp] theorem Engine.fold_R (e : Engine) (T : Table) (b : Byte) : (e.fold T b).R = lookup T (tableIndex b e.R) := rfl
@[simp] theorem Engine.fold_I (e : Engine) (T : Table) (b : Byte) : (e.fold T b).I = e.I + 1#32 := rfl
@[simp] theorem Engine.fold_BUSY (e : Engine) (T : Table) (b : Byte) : (e.fold T b).BUSY = e.BUSY := rfl
@[simp] theorem Engine.fold_DONE (e : Engine) (T : Table) (b : Byte) : (e.fold T b).DONE = e.DONE := rfl
@[simp] theorem Engine.fold_ERR (e : Engine) (T : Table) (b : Byte) : (e.fold T b).ERR = e.ERR := rfl
@[simp] theorem Engine.fold_BASE (e : Engine) (T : Table) (b : Byte) : (e.fold T b).BASE = e.BASE := rfl
@[simp] theorem Engine.fold_SIZE (e : Engine) (T : Table) (b : Byte) : (e.fold T b).SIZE = e.SIZE := rfl
@[simp] theorem Engine.fold_LEN (e : Engine) (T : Table) (b : Byte) : (e.fold T b).LEN = e.LEN := rfl
@[simp] theorem Engine.fold_RESULT (e : Engine) (T : Table) (b : Byte) : (e.fold T b).RESULT = e.RESULT := rfl
@[simp] theorem Engine.fold_window (e : Engine) (T : Table) (b : Byte) : (e.fold T b).window = e.window := rfl

@[simp] theorem Engine.completeOk_R (e : Engine) (v : Byte) : (e.completeOk v).R = e.R := rfl
@[simp] theorem Engine.completeOk_I (e : Engine) (v : Byte) : (e.completeOk v).I = e.I := rfl
@[simp] theorem Engine.completeOk_BUSY (e : Engine) (v : Byte) : (e.completeOk v).BUSY = false := rfl
@[simp] theorem Engine.completeOk_DONE (e : Engine) (v : Byte) : (e.completeOk v).DONE = true := rfl
@[simp] theorem Engine.completeOk_ERR (e : Engine) (v : Byte) : (e.completeOk v).ERR = 0x0#4 := rfl
@[simp] theorem Engine.completeOk_BASE (e : Engine) (v : Byte) : (e.completeOk v).BASE = e.BASE := rfl
@[simp] theorem Engine.completeOk_SIZE (e : Engine) (v : Byte) : (e.completeOk v).SIZE = e.SIZE := rfl
@[simp] theorem Engine.completeOk_LEN (e : Engine) (v : Byte) : (e.completeOk v).LEN = e.LEN := rfl
@[simp] theorem Engine.completeOk_RESULT (e : Engine) (v : Byte) : (e.completeOk v).RESULT = v := rfl
@[simp] theorem Engine.completeOk_window (e : Engine) (v : Byte) : (e.completeOk v).window = e.window := rfl

@[simp] theorem Engine.completeError_R (e : Engine) (c : ErrCode) : (e.completeError c).R = e.R := rfl
@[simp] theorem Engine.completeError_I (e : Engine) (c : ErrCode) : (e.completeError c).I = e.I := rfl
@[simp] theorem Engine.completeError_BUSY (e : Engine) (c : ErrCode) : (e.completeError c).BUSY = false := rfl
@[simp] theorem Engine.completeError_DONE (e : Engine) (c : ErrCode) : (e.completeError c).DONE = true := rfl
@[simp] theorem Engine.completeError_ERR (e : Engine) (c : ErrCode) : (e.completeError c).ERR = c.code := rfl
@[simp] theorem Engine.completeError_BASE (e : Engine) (c : ErrCode) : (e.completeError c).BASE = e.BASE := rfl
@[simp] theorem Engine.completeError_SIZE (e : Engine) (c : ErrCode) : (e.completeError c).SIZE = e.SIZE := rfl
@[simp] theorem Engine.completeError_LEN (e : Engine) (c : ErrCode) : (e.completeError c).LEN = e.LEN := rfl
@[simp] theorem Engine.completeError_RESULT (e : Engine) (c : ErrCode) : (e.completeError c).RESULT = 0x00#8 := rfl
@[simp] theorem Engine.completeError_window (e : Engine) (c : ErrCode) : (e.completeError c).window = e.window := rfl

@[simp] theorem Engine.clearOutcome_R (e : Engine) : (e.clearOutcome).R = e.R := rfl
@[simp] theorem Engine.clearOutcome_I (e : Engine) : (e.clearOutcome).I = e.I := rfl
@[simp] theorem Engine.clearOutcome_BUSY (e : Engine) : (e.clearOutcome).BUSY = e.BUSY := rfl
@[simp] theorem Engine.clearOutcome_DONE (e : Engine) : (e.clearOutcome).DONE = false := rfl
@[simp] theorem Engine.clearOutcome_ERR (e : Engine) : (e.clearOutcome).ERR = 0x0#4 := rfl
@[simp] theorem Engine.clearOutcome_BASE (e : Engine) : (e.clearOutcome).BASE = e.BASE := rfl
@[simp] theorem Engine.clearOutcome_SIZE (e : Engine) : (e.clearOutcome).SIZE = e.SIZE := rfl
@[simp] theorem Engine.clearOutcome_LEN (e : Engine) : (e.clearOutcome).LEN = e.LEN := rfl
@[simp] theorem Engine.clearOutcome_RESULT (e : Engine) : (e.clearOutcome).RESULT = 0x00#8 := rfl
@[simp] theorem Engine.clearOutcome_window (e : Engine) : (e.clearOutcome).window = e.window := rfl

@[simp] theorem Engine.startTransaction_R (e : Engine) : (e.startTransaction).R = e.R := rfl
@[simp] theorem Engine.startTransaction_I (e : Engine) : (e.startTransaction).I = e.I := rfl
@[simp] theorem Engine.startTransaction_BUSY (e : Engine) : (e.startTransaction).BUSY = true := rfl
@[simp] theorem Engine.startTransaction_DONE (e : Engine) : (e.startTransaction).DONE = e.DONE := rfl
@[simp] theorem Engine.startTransaction_ERR (e : Engine) : (e.startTransaction).ERR = e.ERR := rfl
@[simp] theorem Engine.startTransaction_BASE (e : Engine) : (e.startTransaction).BASE = e.BASE := rfl
@[simp] theorem Engine.startTransaction_SIZE (e : Engine) : (e.startTransaction).SIZE = e.SIZE := rfl
@[simp] theorem Engine.startTransaction_LEN (e : Engine) : (e.startTransaction).LEN = e.LEN := rfl
@[simp] theorem Engine.startTransaction_RESULT (e : Engine) : (e.startTransaction).RESULT = e.RESULT := rfl
@[simp] theorem Engine.startTransaction_window (e : Engine) : (e.startTransaction).window = e.window := rfl

@[simp] theorem Engine.setBase_R (e : Engine) (v : Word32) : (e.setBase v).R = e.R := rfl
@[simp] theorem Engine.setBase_I (e : Engine) (v : Word32) : (e.setBase v).I = e.I := rfl
@[simp] theorem Engine.setBase_BUSY (e : Engine) (v : Word32) : (e.setBase v).BUSY = e.BUSY := rfl
@[simp] theorem Engine.setBase_DONE (e : Engine) (v : Word32) : (e.setBase v).DONE = e.DONE := rfl
@[simp] theorem Engine.setBase_ERR (e : Engine) (v : Word32) : (e.setBase v).ERR = e.ERR := rfl
@[simp] theorem Engine.setBase_BASE (e : Engine) (v : Word32) : (e.setBase v).BASE = v := rfl
@[simp] theorem Engine.setBase_SIZE (e : Engine) (v : Word32) : (e.setBase v).SIZE = e.SIZE := rfl
@[simp] theorem Engine.setBase_LEN (e : Engine) (v : Word32) : (e.setBase v).LEN = e.LEN := rfl
@[simp] theorem Engine.setBase_RESULT (e : Engine) (v : Word32) : (e.setBase v).RESULT = e.RESULT := rfl
@[simp] theorem Engine.setBase_window (e : Engine) (v : Word32) : (e.setBase v).window = e.window := rfl

@[simp] theorem Engine.setSize_R (e : Engine) (v : Word32) : (e.setSize v).R = e.R := rfl
@[simp] theorem Engine.setSize_I (e : Engine) (v : Word32) : (e.setSize v).I = e.I := rfl
@[simp] theorem Engine.setSize_BUSY (e : Engine) (v : Word32) : (e.setSize v).BUSY = e.BUSY := rfl
@[simp] theorem Engine.setSize_DONE (e : Engine) (v : Word32) : (e.setSize v).DONE = e.DONE := rfl
@[simp] theorem Engine.setSize_ERR (e : Engine) (v : Word32) : (e.setSize v).ERR = e.ERR := rfl
@[simp] theorem Engine.setSize_BASE (e : Engine) (v : Word32) : (e.setSize v).BASE = e.BASE := rfl
@[simp] theorem Engine.setSize_SIZE (e : Engine) (v : Word32) : (e.setSize v).SIZE = v := rfl
@[simp] theorem Engine.setSize_LEN (e : Engine) (v : Word32) : (e.setSize v).LEN = e.LEN := rfl
@[simp] theorem Engine.setSize_RESULT (e : Engine) (v : Word32) : (e.setSize v).RESULT = e.RESULT := rfl
@[simp] theorem Engine.setSize_window (e : Engine) (v : Word32) : (e.setSize v).window = e.window := rfl

@[simp] theorem Engine.setLen_R (e : Engine) (v : Word32) : (e.setLen v).R = e.R := rfl
@[simp] theorem Engine.setLen_I (e : Engine) (v : Word32) : (e.setLen v).I = e.I := rfl
@[simp] theorem Engine.setLen_BUSY (e : Engine) (v : Word32) : (e.setLen v).BUSY = e.BUSY := rfl
@[simp] theorem Engine.setLen_DONE (e : Engine) (v : Word32) : (e.setLen v).DONE = e.DONE := rfl
@[simp] theorem Engine.setLen_ERR (e : Engine) (v : Word32) : (e.setLen v).ERR = e.ERR := rfl
@[simp] theorem Engine.setLen_BASE (e : Engine) (v : Word32) : (e.setLen v).BASE = e.BASE := rfl
@[simp] theorem Engine.setLen_SIZE (e : Engine) (v : Word32) : (e.setLen v).SIZE = e.SIZE := rfl
@[simp] theorem Engine.setLen_LEN (e : Engine) (v : Word32) : (e.setLen v).LEN = v := rfl
@[simp] theorem Engine.setLen_RESULT (e : Engine) (v : Word32) : (e.setLen v).RESULT = e.RESULT := rfl
@[simp] theorem Engine.setLen_window (e : Engine) (v : Word32) : (e.setLen v).window = e.window := rfl

@[simp] theorem Engine.applyReset_R (e : Engine) : (e.applyReset).R = 0x00#8 := rfl
@[simp] theorem Engine.applyReset_I (e : Engine) : (e.applyReset).I = 0x00000000#32 := rfl
@[simp] theorem Engine.applyReset_BUSY (e : Engine) : (e.applyReset).BUSY = false := rfl
@[simp] theorem Engine.applyReset_DONE (e : Engine) : (e.applyReset).DONE = false := rfl
@[simp] theorem Engine.applyReset_ERR (e : Engine) : (e.applyReset).ERR = 0x0#4 := rfl
@[simp] theorem Engine.applyReset_BASE (e : Engine) : (e.applyReset).BASE = 0x00000000#32 := rfl
@[simp] theorem Engine.applyReset_SIZE (e : Engine) : (e.applyReset).SIZE = 0x00000000#32 := rfl
@[simp] theorem Engine.applyReset_LEN (e : Engine) : (e.applyReset).LEN = 0x00000000#32 := rfl
@[simp] theorem Engine.applyReset_RESULT (e : Engine) : (e.applyReset).RESULT = 0x00#8 := rfl
@[simp] theorem Engine.applyReset_window (e : Engine) : (e.applyReset).window = e.window := rfl

@[simp] theorem State.setEng_eng (s : State) (e : Engine) : (s.setEng e).eng = e := rfl
@[simp] theorem State.setEng_before (s : State) (e : Engine) : (s.setEng e).before = s.before := rfl
@[simp] theorem State.setEng_after (s : State) (e : Engine) : (s.setEng e).after = s.after := rfl
@[simp] theorem State.setEng_rom (s : State) (e : Engine) : (s.setEng e).rom = s.rom := rfl
@[simp] theorem State.setEng_mem (s : State) (e : Engine) : (s.setEng e).mem = s.mem := rfl
@[simp] theorem State.setEng_admission (s : State) (e : Engine) : (s.setEng e).admission = s.admission := rfl
@[simp] theorem State.setEng_readData (s : State) (e : Engine) : (s.setEng e).readData = s.readData := rfl
@[simp] theorem State.setEng_inputs (s : State) (e : Engine) : (s.setEng e).inputs = s.inputs := rfl
@[simp] theorem State.setEng_resetPin (s : State) (e : Engine) : (s.setEng e).resetPin = s.resetPin := rfl

@[simp] theorem State.returnToHost_eng (s : State) (v : Word32) : (s.returnToHost v).eng = s.eng := rfl
@[simp] theorem State.returnToHost_before (s : State) (v : Word32) : (s.returnToHost v).before = s.before := rfl
@[simp] theorem State.returnToHost_after (s : State) (v : Word32) : (s.returnToHost v).after = s.after := rfl
@[simp] theorem State.returnToHost_rom (s : State) (v : Word32) : (s.returnToHost v).rom = s.rom := rfl
@[simp] theorem State.returnToHost_mem (s : State) (v : Word32) : (s.returnToHost v).mem = s.mem := rfl
@[simp] theorem State.returnToHost_admission (s : State) (v : Word32) : (s.returnToHost v).admission = s.admission := rfl
@[simp] theorem State.returnToHost_readData (s : State) (v : Word32) : (s.returnToHost v).readData = some v := rfl
@[simp] theorem State.returnToHost_inputs (s : State) (v : Word32) : (s.returnToHost v).inputs = s.inputs := rfl
@[simp] theorem State.returnToHost_resetPin (s : State) (v : Word32) : (s.returnToHost v).resetPin = s.resetPin := rfl

@[simp] theorem State.hostWrite_eng (s : State) (a : Addr) (v : Byte) : (s.hostWrite a v).eng = s.eng := rfl
@[simp] theorem State.hostWrite_before (s : State) (a : Addr) (v : Byte) : (s.hostWrite a v).before = s.before := rfl
@[simp] theorem State.hostWrite_after (s : State) (a : Addr) (v : Byte) : (s.hostWrite a v).after = s.after := rfl
@[simp] theorem State.hostWrite_rom (s : State) (a : Addr) (v : Byte) : (s.hostWrite a v).rom = s.rom := rfl
@[simp] theorem State.hostWrite_mem (s : State) (a : Addr) (v : Byte) : (s.hostWrite a v).mem = s.mem.set a.toNat v := rfl
@[simp] theorem State.hostWrite_admission (s : State) (a : Addr) (v : Byte) : (s.hostWrite a v).admission = s.admission := rfl
@[simp] theorem State.hostWrite_readData (s : State) (a : Addr) (v : Byte) : (s.hostWrite a v).readData = s.readData := rfl
@[simp] theorem State.hostWrite_inputs (s : State) (a : Addr) (v : Byte) : (s.hostWrite a v).inputs = s.inputs := rfl
@[simp] theorem State.hostWrite_resetPin (s : State) (a : Addr) (v : Byte) : (s.hostWrite a v).resetPin = s.resetPin := rfl

@[simp] theorem State.applyReset_eng (s : State) : (s.applyReset).eng = s.eng.applyReset := rfl
@[simp] theorem State.applyReset_before (s : State) : (s.applyReset).before = s.before.map Engine.applyReset := rfl
@[simp] theorem State.applyReset_after (s : State) : (s.applyReset).after = s.after.map Engine.applyReset := rfl
@[simp] theorem State.applyReset_rom (s : State) : (s.applyReset).rom = s.rom := rfl
@[simp] theorem State.applyReset_mem (s : State) : (s.applyReset).mem = s.mem := rfl
@[simp] theorem State.applyReset_admission (s : State) : (s.applyReset).admission = s.admission := rfl
@[simp] theorem State.applyReset_readData (s : State) : (s.applyReset).readData = s.readData := rfl
@[simp] theorem State.applyReset_inputs (s : State) : (s.applyReset).inputs = s.inputs := rfl
@[simp] theorem State.applyReset_resetPin (s : State) : (s.applyReset).resetPin = s.resetPin := rfl

@[simp] theorem State.schedule_eng (s : State) (ev : Event) : (s.schedule ev).eng = s.eng := rfl
@[simp] theorem State.schedule_before (s : State) (ev : Event) : (s.schedule ev).before = s.before := rfl
@[simp] theorem State.schedule_after (s : State) (ev : Event) : (s.schedule ev).after = s.after := rfl
@[simp] theorem State.schedule_rom (s : State) (ev : Event) : (s.schedule ev).rom = s.rom := rfl
@[simp] theorem State.schedule_mem (s : State) (ev : Event) : (s.schedule ev).mem = s.mem := rfl
@[simp] theorem State.schedule_admission (s : State) (ev : Event) : (s.schedule ev).admission = s.admission := rfl
@[simp] theorem State.schedule_readData (s : State) (ev : Event) : (s.schedule ev).readData = s.readData := rfl
@[simp] theorem State.schedule_inputs (s : State) (ev : Event) : (s.schedule ev).inputs = ev :: s.inputs := rfl
@[simp] theorem State.schedule_resetPin (s : State) (ev : Event) : (s.schedule ev).resetPin = false := rfl

end Sys2Proof.Machine
end

