-- ==== Sys2Proof/Laws/Ops.lean ====
section
/-! SUPPORT. One lemma per shared operation that says once everything it can answer: validation, an accept, the choice
of the addressed instance, reset, and the sequencer (spec 40 R93, R94; 41 R100; 60 R116, R117, R129; 70 R132). -/

namespace Sys2Proof.Machine

@[simp] theorem State.setEng_self (s : State) : s.setEng s.eng = s := rfl

@[simp] theorem State.setEng_setEng (s : State) (e f : Engine) : (s.setEng e).setEng f = s.setEng f := rfl

/-- The error answers of validation (60 R116). -/
theorem validate_eq_invalidLength (bufv : Bool) (base size len : Word32) :
    validate bufv base size len = .err .invalidLength ↔
      sint32 len < 0 ∨ (bufv = true ∧ 0 ≤ sint32 len ∧
        ((uint32 size : Int) < sint32 len ∨ (Config.addrSpace : Int) < uint32 base + sint32 len)) := by
  unfold validate
  cases bufv <;> split_ifs <;> simp_all

/-- The absent-buffer answer of validation (60 R117). -/
theorem validate_eq_nullBuffer (bufv : Bool) (base size len : Word32) :
    validate bufv base size len = .err .nullBuffer ↔ bufv = false ∧ 0 < sint32 len := by
  unfold validate
  cases bufv <;> split_ifs <;> simp_all
  omega

/-- The accepting answers of validation (40 R94). -/
theorem validate_eq_ok (bufv : Bool) (base size len : Word32) (n : Nat) :
    validate bufv base size len = .ok n ↔
      sint32 len = n ∧ (n = 0 ∧ bufv = false ∨
        bufv = true ∧ (n : Int) ≤ uint32 size ∧ (uint32 base : Int) + n ≤ Config.addrSpace) := by
  unfold validate
  cases bufv <;> split_ifs <;> simp_all <;> omega

/-- What an accept does, by what validation answers (40 R93). -/
theorem Engine.accept_of_err {e : Engine} {bufv : Bool} {c : ErrCode}
    (h : validate bufv e.BASE e.SIZE e.LEN = .err c) :
    e.accept bufv = { e with R := 0x00#8, I := 0#32, BUSY := false, DONE := true, ERR := c.code, RESULT := 0x00#8 } := by
  simp [Engine.accept, h, Engine.conclude, Engine.completeError, Engine.initRegs, Engine.clearOutcome, Config.crcInit]

theorem Engine.accept_of_zero {e : Engine} {bufv : Bool} (h : validate bufv e.BASE e.SIZE e.LEN = .ok 0) :
    e.accept bufv = { e with R := 0x00#8, I := 0#32, BUSY := false, DONE := true, ERR := 0x0#4, RESULT := 0x00#8 } := by
  simp [Engine.accept, h, Engine.conclude, Engine.completeOk, Engine.initRegs, Engine.clearOutcome, Config.crcInit]

theorem Engine.accept_of_pos {e : Engine} {bufv : Bool} {n : Nat} (hn : 0 < n)
    (h : validate bufv e.BASE e.SIZE e.LEN = .ok n) :
    e.accept bufv = { e with R := 0x00#8, I := 0#32, BUSY := true, DONE := false, ERR := 0x0#4, RESULT := 0x00#8 } := by
  obtain ⟨m, rfl⟩ := Nat.exists_eq_succ_of_ne_zero hn.ne'
  simp [Engine.accept, h, Engine.conclude, Engine.startTransaction, Engine.initRegs, Engine.clearOutcome,
    Config.crcInit]

/-- An accept keeps the parameters it judged and the instance's place (60 R118). -/
theorem Engine.accept_keeps (e : Engine) (bufv : Bool) :
    (e.accept bufv).BASE = e.BASE ∧ (e.accept bufv).SIZE = e.SIZE ∧ (e.accept bufv).LEN = e.LEN ∧
      (e.accept bufv).window = e.window := by
  cases h : validate bufv e.BASE e.SIZE e.LEN with
  | err c => rw [Engine.accept_of_err h]; simp
  | ok n =>
    rcases Nat.eq_zero_or_pos n with rfl | hn
    · rw [Engine.accept_of_zero h]; simp
    · rw [Engine.accept_of_pos hn h]; simp

@[simp] theorem Engine.compute_window (e : Engine) (bufv : Bool) : (e.compute bufv).window = e.window := by
  unfold Engine.compute
  split
  · rfl
  · exact (e.accept_keeps bufv).2.2.2

theorem Engine.updateEnabled_iff (e : Engine) :
    e.updateEnabled = true ↔ e.BUSY = true ∧ (uint32 e.I : Int) < sint32 e.LEN := by
  simp [Engine.updateEnabled]

theorem Engine.finishEnabled_iff (e : Engine) :
    e.finishEnabled = true ↔ e.BUSY = true ∧ (uint32 e.I : Int) = sint32 e.LEN := by
  simp [Engine.finishEnabled]

/-- The sequencer's steps (41 R100): UPDATE exactly where it is enabled and its read completes. -/
theorem State.sequencer_eq_update (s : State) (b : Byte) :
    s.sequencer = some (.update b) ↔
      s.eng.updateEnabled = true ∧ s.memRead s.eng.readAddress = some b := by
  unfold State.sequencer
  split_ifs <;> simp_all

/-- FINISH exactly where it is enabled (41 R100). -/
theorem State.sequencer_eq_finish (s : State) : s.sequencer = some .finish ↔ s.eng.finishEnabled = true := by
  unfold State.sequencer
  split_ifs with h1 h2
  · rw [Engine.updateEnabled_iff] at h1
    simp [Engine.finishEnabled_iff, h1.1]
    omega
  · simp [h2]
  · simp [h2]

/-- The sequencer produces no other instruction (41 R100). -/
theorem State.sequencer_cases {s : State} {i : Instr} (h : s.sequencer = some i) :
    (∃ b, i = .update b) ∨ i = .finish := by
  unfold State.sequencer at h
  split_ifs at h
  · obtain ⟨b, -, rfl⟩ := Option.map_eq_some_iff.1 h
    exact .inl ⟨b, rfl⟩
  · exact .inr (Option.some.inj h).symm

theorem focusFrom_eq_some {win : BitVec 27} {pre es : List Engine} {p : List Engine × Engine × List Engine}
    (h : focusFrom win pre es = some p) : p.1.reverse ++ p.2.1 :: p.2.2 = pre.reverse ++ es ∧ p.2.1.window = win := by
  induction es generalizing pre with
  | nil => simp [focusFrom] at h
  | cons e es ih =>
    simp only [focusFrom] at h
    split at h
    · obtain rfl := Option.some.inj h
      exact ⟨rfl, ‹_›⟩
    · simpa using ih h

/-- Choosing the addressed instance changes no instance and nothing else; the instance chosen is one with the
window asked for (60 R129). -/
theorem State.focus_eq_some {s s' : State} {win : BitVec 27} (h : s.focus win = some s') :
    s'.engines = s.engines ∧ s'.eng.window = win ∧
      s' = { s with eng := s'.eng, before := s'.before, after := s'.after } := by
  unfold State.focus at h
  split at h
  · rename_i pre e post hf
    obtain rfl := Option.some.inj h
    have := focusFrom_eq_some hf
    exact ⟨by simpa [State.engines] using this.1, this.2, rfl⟩
  · cases h

/-- Looking for a window that some instance of the list has finds one, passing over no instance that has it. -/
theorem focusFrom_of_mem {win : BitVec 27} {pre es : List Engine} (h : ∃ e ∈ es, e.window = win)
    (hp : ∀ e ∈ pre, e.window ≠ win) : ∃ p, focusFrom win pre es = some p ∧ ∀ e ∈ p.1, e.window ≠ win := by
  induction es generalizing pre with
  | nil => simp at h
  | cons e es ih =>
    by_cases he : e.window = win
    · exact ⟨(pre, e, es), by simp [focusFrom, he], hp⟩
    · simp only [focusFrom, if_neg he]
      exact ih (by simpa [he] using h) (by simpa [he] using hp)

/-- An instance can be addressed wherever one has the window; the first such is (60 R129). -/
theorem State.focus_of_mem {s : State} {win : BitVec 27} (h : ∃ e ∈ s.engines, e.window = win) :
    ∃ s', s.focus win = some s' ∧ ∀ e ∈ s'.before, e.window ≠ win := by
  obtain ⟨p, hp, hb⟩ := focusFrom_of_mem (pre := []) h (by simp)
  exact ⟨{ s with eng := p.2.1, before := p.1, after := p.2.2 }, by simp [State.focus, hp], hb⟩

/-- Every instance is reset by the one reset event (70 R132, 60 R129). -/
theorem State.engines_applyReset (s : State) : s.applyReset.engines = s.engines.map Engine.applyReset := by
  simp [State.engines, List.map_reverse]

theorem State.mem_engines (s : State) (e : Engine) :
    e ∈ s.engines ↔ e ∈ s.before ∨ e = s.eng ∨ e ∈ s.after := by
  simp [State.engines]

theorem State.eng_mem_engines (s : State) : s.eng ∈ s.engines := by simp [State.engines]

end Sys2Proof.Machine
end

