-- ==== Sys2Proof/Laws/PerInstr.lean ====
section
/-! SUPPORT. Statements made of every instruction as syntax, one lemma per constructor. -/

namespace Sys2Proof.Laws

/-- A well-formed instruction's word is of the row of the opcode map that has its mnemonic (30 R68 to R70). -/
def RowMatch.Statement (i : Instr) : Prop :=
  i.wf = true → ∃ r ∈ opcodeRows, r.mnemonic = i.mnemonic ∧ r.matchesWord (encode i) = true

/-- A format-B row matches a word whose W and OFF are the row's. -/
theorem busRow_matches (name : String) (p : Nat) (w : Bool) (off : BitVec 5) (v : Word32)
    (h : ((w.toNat * 2 ^ 5 + off.toNat) &&& 0x3F) * 2 ^ 32 = p) :
    (OpRow.mk name 38 0x3F00000000 p).matchesWord (.busAccess (busWord w off v)) = true := by
  simp only [OpRow.matchesWord, EncWord.width, EncWord.value, busWord_masked, h, beq_self_eq_true, Bool.and_self]

/-- A reserved slots' row matches a word whose W is the row's and whose OFF is 0x18 or 0x1C. -/
theorem rsvRow_matches (name : String) (p : Nat) (w : Bool) (off : BitVec 5) (v : Word32)
    (h : ((w.toNat * 2 ^ 5 + off.toNat) &&& 0x3B) * 2 ^ 32 = p) :
    (OpRow.mk name 38 0x3B00000000 p).matchesWord (.busAccess (busWord w off v)) = true := by
  simp only [OpRow.matchesWord, EncWord.width, EncWord.value, busWord_masked_rsv, h, beq_self_eq_true, Bool.and_self]

theorem RowMatch.rdCtrl : RowMatch.Statement .rdCtrl := fun _ =>
  ⟨⟨"RD_CTRL", 38, 0x3F00000000, 0x0000000000⟩, by decide, rfl, busRow_matches _ _ _ _ _ (by decide)⟩

theorem RowMatch.wrCtrl (c : Word32) : RowMatch.Statement (.wrCtrl c) := fun _ =>
  ⟨⟨"WR_CTRL", 38, 0x3F00000000, 0x2000000000⟩, by decide, rfl, busRow_matches _ _ _ _ _ (by decide)⟩

theorem RowMatch.rdStatus : RowMatch.Statement .rdStatus := fun _ =>
  ⟨⟨"RD_STATUS", 38, 0x3F00000000, 0x0400000000⟩, by decide, rfl, busRow_matches _ _ _ _ _ (by decide)⟩

theorem RowMatch.wrStatus (v : Word32) : RowMatch.Statement (.wrStatus v) := fun _ =>
  ⟨⟨"WR_STATUS", 38, 0x3F00000000, 0x2400000000⟩, by decide, rfl, busRow_matches _ _ _ _ _ (by decide)⟩

theorem RowMatch.rdBase : RowMatch.Statement .rdBase := fun _ =>
  ⟨⟨"RD_BASE", 38, 0x3F00000000, 0x0800000000⟩, by decide, rfl, busRow_matches _ _ _ _ _ (by decide)⟩

theorem RowMatch.wrBase (v : Word32) : RowMatch.Statement (.wrBase v) := fun _ =>
  ⟨⟨"WR_BASE", 38, 0x3F00000000, 0x2800000000⟩, by decide, rfl, busRow_matches _ _ _ _ _ (by decide)⟩

theorem RowMatch.rdSize : RowMatch.Statement .rdSize := fun _ =>
  ⟨⟨"RD_SIZE", 38, 0x3F00000000, 0x0C00000000⟩, by decide, rfl, busRow_matches _ _ _ _ _ (by decide)⟩

theorem RowMatch.wrSize (v : Word32) : RowMatch.Statement (.wrSize v) := fun _ =>
  ⟨⟨"WR_SIZE", 38, 0x3F00000000, 0x2C00000000⟩, by decide, rfl, busRow_matches _ _ _ _ _ (by decide)⟩

theorem RowMatch.rdLen : RowMatch.Statement .rdLen := fun _ =>
  ⟨⟨"RD_LEN", 38, 0x3F00000000, 0x1000000000⟩, by decide, rfl, busRow_matches _ _ _ _ _ (by decide)⟩

theorem RowMatch.wrLen (v : Word32) : RowMatch.Statement (.wrLen v) := fun _ =>
  ⟨⟨"WR_LEN", 38, 0x3F00000000, 0x3000000000⟩, by decide, rfl, busRow_matches _ _ _ _ _ (by decide)⟩

theorem RowMatch.rdResult : RowMatch.Statement .rdResult := fun _ =>
  ⟨⟨"RD_RESULT", 38, 0x3F00000000, 0x1400000000⟩, by decide, rfl, busRow_matches _ _ _ _ _ (by decide)⟩

theorem RowMatch.wrResult (v : Word32) : RowMatch.Statement (.wrResult v) := fun _ =>
  ⟨⟨"WR_RESULT", 38, 0x3F00000000, 0x3400000000⟩, by decide, rfl, busRow_matches _ _ _ _ _ (by decide)⟩

/-- The reserved offsets (10_state R35). -/
theorem reservedOffset_cases {off : BitVec 5} (h : isReservedOffset off = true) : off = 0x18#5 ∨ off = 0x1C#5 := by
  simpa [isReservedOffset] using h

theorem RowMatch.rdRsv (off : BitVec 5) : RowMatch.Statement (.rdRsv off) := fun h =>
  ⟨⟨"RD_RSV", 38, 0x3B00000000, 0x1800000000⟩, by decide, rfl, rsvRow_matches _ _ _ _ _ (by
    rcases reservedOffset_cases h with rfl | rfl <;> decide)⟩

theorem RowMatch.wrRsv (off : BitVec 5) (v : Word32) : RowMatch.Statement (.wrRsv off v) := fun h =>
  ⟨⟨"WR_RSV", 38, 0x3B00000000, 0x3800000000⟩, by decide, rfl, rsvRow_matches _ _ _ _ _ (by
    rcases reservedOffset_cases h with rfl | rfl <;> decide)⟩

theorem RowMatch.nop : RowMatch.Statement .nop := fun _ =>
  ⟨⟨"NOP", 32, 0x0000000F, 0x00000000⟩, by decide, rfl, by decide⟩

theorem RowMatch.compute (bufv : Bool) : RowMatch.Statement (.compute bufv) := fun _ =>
  ⟨⟨"COMPUTE", 32, 0x0000000F, 0x00000001⟩, by decide, rfl, by cases bufv <;> decide⟩

theorem RowMatch.init : RowMatch.Statement .init := fun _ =>
  ⟨⟨"INIT", 10, 0x3FF, 0x000⟩, by decide, rfl, by decide⟩

theorem RowMatch.update (b : Byte) : RowMatch.Statement (.update b) := fun _ =>
  ⟨⟨"UPDATE", 10, 0x300, 0x100⟩, by decide, rfl, by
    simp only [OpRow.matchesWord, encode, EncWord.width, EncWord.value, microWord_masked]
    decide⟩

theorem RowMatch.finish : RowMatch.Statement .finish := fun _ =>
  ⟨⟨"FINISH", 10, 0x3FF, 0x200⟩, by decide, rfl, by decide⟩

end Sys2Proof.Laws
end

