-- ==== Sys2Proof/Laws/Step.lean ====
section
/-! SUPPORT. What an instruction, a move and a step can do, said once: the changes an instance can undergo, and the
inversion of exec, runEvent and step (spec 10_state R17, R19, R21; 41 R100). Invariants are derived from these. -/

namespace Sys2Proof.Machine

/-- Every change a move can make to an instance `e`, over the table `T` and the admission `ad`, with the condition
it is made under. -/
inductive EngineChange (T : Table) (ad : List Config.AdmitRange) (e : Engine) : Engine → Prop where
  | same : EngineChange T ad e e
  | setBase (v : Word32) (h : e.BUSY = false) : EngineChange T ad e (e.setBase v)
  | setSize (v : Word32) (h : e.BUSY = false) : EngineChange T ad e (e.setSize v)
  | setLen (v : Word32) (h : e.BUSY = false) : EngineChange T ad e (e.setLen v)
  | accept (bufv : Bool) (h : e.BUSY = false) : EngineChange T ad e (e.accept bufv)
  | clear (h : e.BUSY = false) : EngineChange T ad e e.initRegs
  | fold (b : Byte) (h : e.updateEnabled = true) (ha : e.readAddress < Config.addrSpace)
      (hm : admits ad e.readAddress = true) : EngineChange T ad e (e.fold T b)
  | complete (h : e.finishEnabled = true) : EngineChange T ad e (e.completeOk e.R)

variable {T : Table} {ad : List Config.AdmitRange}

theorem EngineChange.writeParam {e f : Engine} (h : e.BUSY = false → EngineChange T ad e f) :
    EngineChange T ad e (e.writeParam f) := by
  unfold Engine.writeParam
  split
  · exact .same
  · rename_i hb
    exact h (by simpa using hb)

theorem EngineChange.compute (e : Engine) (bufv : Bool) : EngineChange T ad e (e.compute bufv) := by
  unfold Engine.compute
  split
  · exact .same
  · rename_i hb
    exact .accept bufv (by simpa using hb)

/-- No change moves an instance in the address map. -/
theorem EngineChange.window_eq {e f : Engine} (h : EngineChange T ad e f) : f.window = e.window := by
  cases h with
  | accept bufv => exact (e.accept_keeps bufv).2.2.2
  | _ => rfl

/-- What UPDATE does, whenever it runs (41 R102). -/
theorem execUpdate_eq_next {b : Byte} {s t : State} :
    execUpdate b s = .next t ↔ s.eng.updateEnabled = true ∧ s.eng.readAddress < Config.addrSpace ∧
      admits s.admission s.eng.readAddress = true ∧ t = s.setEng (s.eng.fold s.rom b) := by
  unfold execUpdate
  split_ifs <;> simp_all
  exact eq_comm

/-- What FINISH does, whenever it runs (41 R103). -/
theorem execFinish_eq_next {s t : State} :
    execFinish s = .next t ↔ s.eng.finishEnabled = true ∧ t = s.setEng (s.eng.completeOk s.eng.R) := by
  unfold execFinish
  split_ifs <;> simp_all
  exact eq_comm

/-- An instruction may change the addressed instance and return a value to the host; it changes nothing else, and
keeps the instance's place in the address map. -/
theorem exec_frame {i : Instr} {s t : State} (h : exec i s = .next t) :
    t = { s with eng := t.eng, readData := t.readData } ∧ t.eng.window = s.eng.window := by
  cases i with
  | rdCtrl | rdStatus | rdBase | rdSize | rdLen | rdResult | rdRsv => cases h; exact ⟨rfl, rfl⟩
  | wrStatus | wrResult | wrRsv | nop | init => cases h; exact ⟨rfl, rfl⟩
  | wrBase | wrSize | wrLen =>
    cases h
    refine ⟨rfl, ?_⟩
    simp only [State.setEng_eng, Engine.writeParam]
    split <;> rfl
  | compute bufv => cases h; exact ⟨rfl, Engine.compute_window _ _⟩
  | wrCtrl c =>
    simp only [exec, execWrCtrl] at h
    split at h <;> cases h
    · exact ⟨rfl, rfl⟩
    · exact ⟨rfl, Engine.compute_window _ _⟩
    · exact ⟨rfl, rfl⟩
  | update b =>
    obtain ⟨-, -, -, rfl⟩ := execUpdate_eq_next.1 h
    exact ⟨rfl, rfl⟩
  | finish =>
    obtain ⟨-, rfl⟩ := execFinish_eq_next.1 h
    exact ⟨rfl, rfl⟩

/-- An instruction changes the addressed instance in one of the ways of EngineChange, may return a value to the host,
and changes nothing else. INIT is asked for only where an accept could take place. -/
theorem exec_next {i : Instr} {s t : State} (h : exec i s = .next t) (hi : i = .init → s.eng.BUSY = false) :
    ∃ e rd, EngineChange s.rom s.admission s.eng e ∧ t = { s with eng := e, readData := rd } := by
  cases i with
  | rdCtrl | rdStatus | rdBase | rdSize | rdLen | rdResult | rdRsv => cases h; exact ⟨_, _, .same, rfl⟩
  | wrStatus | wrResult | wrRsv | nop => cases h; exact ⟨_, _, .same, rfl⟩
  | wrBase v => cases h; exact ⟨_, _, .writeParam (.setBase v), rfl⟩
  | wrSize v => cases h; exact ⟨_, _, .writeParam (.setSize v), rfl⟩
  | wrLen v => cases h; exact ⟨_, _, .writeParam (.setLen v), rfl⟩
  | compute bufv => cases h; exact ⟨_, _, .compute _ bufv, rfl⟩
  | init => cases h; exact ⟨_, _, .clear (hi rfl), rfl⟩
  | wrCtrl c =>
    simp only [exec, execWrCtrl] at h
    split at h
    · cases h; exact ⟨_, _, .same, rfl⟩
    · cases h; exact ⟨_, _, .compute _ (cmdBufv c), rfl⟩
    · cases h; exact ⟨_, _, .same, rfl⟩
  | update b =>
    obtain ⟨h1, h2, h3, rfl⟩ := execUpdate_eq_next.1 h
    exact ⟨_, _, .fold b h1 h2 h3, rfl⟩
  | finish =>
    obtain ⟨h1, rfl⟩ := execFinish_eq_next.1 h
    exact ⟨_, _, .complete h1, rfl⟩

/-- A bus access word never spells a micro-operation (30 R65, R68). -/
theorem decodeBus_ne_init {w : BitVec 38} {i : Instr} (h : decodeBus w = .ok i) : i ≠ .init := by
  rintro rfl
  simp only [decodeBus, decodeWrite, decodeRead] at h
  split at h <;> split at h <;> cases h

theorem runAccess_next {w : BitVec 38} {s t : State} (h : runAccess w s = .next t) :
    ∃ e rd, EngineChange s.rom s.admission s.eng e ∧ t = { s with eng := e, readData := rd } := by
  unfold runAccess at h
  split at h
  · rename_i i hd
    exact exec_next h fun hi => absurd hi (decodeBus_ne_init hd)
  · cases h

/-- What one move can do, whichever it is: reset; a write to host memory by the host; or a change of one instance,
after an instance has been chosen (which changes none). -/
theorem runEvent_next {ev : Event} {s t : State} (h : runEvent ev s = .next t) :
    (ev = .reset ∧ t = s.applyReset) ∨
    (∃ a v, ev = .memWrite a v ∧ t = s.hostWrite a v) ∨
    (∃ (s' : State) (e : Engine) (rd : Option Word32), s'.engines = s.engines ∧
      s' = { s with eng := s'.eng, before := s'.before, after := s'.after } ∧
      EngineChange s.rom s.admission s'.eng e ∧ t = { s' with eng := e, readData := rd }) := by
  cases ev with
  | access w =>
    obtain ⟨e, rd, hc, rfl⟩ := runAccess_next h
    exact .inr (.inr ⟨s, e, rd, rfl, rfl, hc, rfl⟩)
  | bus r =>
    simp only [runEvent, runBus] at h
    split at h
    · cases h
    · rename_i s' hf
      obtain ⟨h1, -, h2⟩ := State.focus_eq_some hf
      split at h
      · obtain ⟨e, rd, hc, rfl⟩ := runAccess_next h
        exact .inr (.inr ⟨s', e, rd, h1, h2, by rw [h2] at hc; exact hc, rfl⟩)
      · cases h
  | memWrite a v => cases h; exact .inr (.inl ⟨a, v, rfl, rfl⟩)
  | memRead a => cases h; exact .inr (.inr ⟨s, s.eng, _, rfl, rfl, .same, rfl⟩)
  | engine =>
    simp only [runEvent, runEngine] at h
    split at h
    · rename_i i hs
      obtain ⟨e, rd, hc, rfl⟩ := exec_next h (by
        rcases State.sequencer_cases hs with ⟨b, rfl⟩ | rfl <;> simp)
      exact .inr (.inr ⟨s, e, rd, rfl, rfl, hc, rfl⟩)
    · cases h
      exact .inr (.inr ⟨s, s.eng, s.readData, rfl, rfl, .same, rfl⟩)
  | micro w =>
    simp only [runEvent, runMicro] at h
    split at h
    · cases h
    · rename_i i hd
      split at h
      · rename_i hp
        obtain ⟨e, rd, hc, rfl⟩ := exec_next h (by
          rintro rfl
          rw [State.produces, Bool.or_eq_true] at hp
          rcases hp with hp | hp
          · rcases State.sequencer_cases (eq_of_beq hp) with ⟨b, hb⟩ | hb <;> cases hb
          · simpa using hp)
        exact .inr (.inr ⟨s, e, rd, rfl, rfl, hc, rfl⟩)
      · cases h
  | select win =>
    simp only [runEvent, runSelect] at h
    split at h
    · rename_i s' hf
      obtain ⟨h1, -, h2⟩ := State.focus_eq_some hf
      cases h
      exact .inr (.inr ⟨t, t.eng, t.readData, h1, h2, .same, rfl⟩)
    · cases h
  | reset => cases h; exact .inl ⟨rfl, rfl⟩

/-- Taking the next move off the schedule changes only the schedule. -/
theorem State.nextEvent_snd (s : State) :
    s.nextEvent.2 = { s with inputs := s.nextEvent.2.inputs, resetPin := s.nextEvent.2.resetPin } := by
  unfold State.nextEvent
  split
  · rfl
  · split <;> rfl

@[simp] theorem State.nextEvent_engines (s : State) : s.nextEvent.2.engines = s.engines := by
  rw [s.nextEvent_snd]; rfl

@[simp] theorem State.nextEvent_eng (s : State) : s.nextEvent.2.eng = s.eng := by rw [s.nextEvent_snd]

@[simp] theorem State.nextEvent_mem (s : State) : s.nextEvent.2.mem = s.mem := by rw [s.nextEvent_snd]

@[simp] theorem State.nextEvent_rom (s : State) : s.nextEvent.2.rom = s.rom := by rw [s.nextEvent_snd]

@[simp] theorem State.nextEvent_admission (s : State) : s.nextEvent.2.admission = s.admission := by
  rw [s.nextEvent_snd]

/-- What one step can do to the instances: reset them all; leave them all, with a byte of host memory written by the
host; or change one, where it stands. The ROM, the admission and the rest of memory stay. -/
theorem step_next {s t : State} (h : step s = .next t) :
    t.rom = s.rom ∧ t.admission = s.admission ∧
    ((s.nextEvent.1 = .reset ∧ t.engines = s.engines.map Engine.applyReset ∧ t.mem = s.mem) ∨
     (∃ a v, s.nextEvent.1 = .memWrite a v ∧ t.engines = s.engines ∧ t.mem = s.mem.set a.toNat v) ∨
     (s.nextEvent.1 ≠ .reset ∧ t.mem = s.mem ∧ ∃ pre old post new, s.engines = pre ++ old :: post ∧
       t.engines = pre ++ new :: post ∧ EngineChange s.rom s.admission old new)) := by
  rcases hev : s.nextEvent with ⟨ev, s0⟩
  have hs0 : s0 = { s with inputs := s0.inputs, resetPin := s0.resetPin } := by
    have := s.nextEvent_snd
    rwa [hev] at this
  have h0 : s0.engines = s.engines := by rw [hs0]; rfl
  have hr : s0.rom = s.rom := by rw [hs0]
  have ha : s0.admission = s.admission := by rw [hs0]
  have hm : s0.mem = s.mem := by rw [hs0]
  have h' : runEvent ev s0 = .next t := by rw [step, hev] at h; exact h
  by_cases hre : ev = .reset
  · subst hre
    obtain rfl : s0.applyReset = t := by injection h'
    exact ⟨hr, ha, .inl ⟨rfl, by rw [State.engines_applyReset, h0], hm⟩⟩
  · rcases runEvent_next h' with ⟨rfl, -⟩ | ⟨a, v, rfl, rfl⟩ | ⟨s', e, rd, h1, h2, hc, rfl⟩
    · exact absurd rfl hre
    · exact ⟨hr, ha, .inr (.inl ⟨a, v, rfl, h0, by simp [hm]⟩)⟩
    · rw [h2]
      refine ⟨hr, ha, .inr (.inr ⟨hre, hm, s'.before.reverse, s'.eng, s'.after, e, ?_, rfl, ?_⟩)⟩
      · rw [← h0, ← h1]; rfl
      · rw [← hr, ← ha]; exact hc

/-- A step whose schedule is empty and whose reset is not asserted is the sequencer's (70 R141). -/
theorem step_of_no_inputs {s : State} (hp : s.resetPin = false) (hi : s.inputs = []) : step s = runEngine s := by
  simp [step, State.nextEvent, hp, hi, runEvent]

/-- A step runs the next move of the schedule. -/
theorem step_of_inputs {s : State} {ev : Event} {rest : List Event} (hp : s.resetPin = false)
    (hi : s.inputs = ev :: rest) : step s = runEvent ev { s with inputs := rest } := by
  simp [step, State.nextEvent, hp, hi]

/-- A step runs the move that was put before every other, and reset is then not asserted. -/
theorem step_schedule (s : State) (ev : Event) : step (s.schedule ev) = runEvent ev { s with resetPin := false } := by
  rw [step_of_inputs (s := s.schedule ev) rfl rfl]
  rfl

/-- A U word that this state produces runs as its instruction. -/
theorem runMicro_of_produces {s : State} {w : BitVec 10} {i : Instr} (hd : decodeMicro w = .ok i)
    (hp : s.produces i = true) : runMicro w s = exec i s := by
  simp [runMicro, hd, hp]

/-- The state made ready for UPDATE with the byte `b` has that step next, and the step completes. -/
theorem State.readyForUpdate_ready (s : State) (b : Byte) :
    (s.readyForUpdate b).sequencer = some (.update b) ∧ ∃ t, exec (.update b) (s.readyForUpdate b) = .next t := by
  have hr : (s.readyForUpdate b).eng.updateEnabled = true ∧
      (s.readyForUpdate b).eng.readAddress < Config.addrSpace := by
    simp only [State.readyForUpdate]
    split
    · simp_all
    · refine ⟨(Engine.updateEnabled_iff _).2 ⟨rfl, (by decide : (uint32 0#32 : Int) < sint32 1#32)⟩, ?_⟩
      have := s.eng.BASE.isLt
      simpa [Engine.oneByteTransaction, Engine.readAddress, uint32, Config.addrSpace] using this
  have ha : admits (s.readyForUpdate b).admission (s.readyForUpdate b).eng.readAddress = true := by
    simp [State.readyForUpdate, admits]
  refine ⟨(State.sequencer_eq_update _ b).2 ⟨hr.1, (State.memRead_eq_some _ _ b).2 ⟨hr.2, ha, ?_⟩⟩, _,
    execUpdate_eq_next.2 ⟨hr.1, hr.2, ha, rfl⟩⟩
  exact Memory.byte_set_same _ _ _

/-- The state made ready for FINISH has that step next, and the step completes. -/
theorem State.readyForFinish_ready (s : State) :
    s.readyForFinish.sequencer = some .finish ∧ ∃ t, exec .finish s.readyForFinish = .next t := by
  have hr : s.readyForFinish.eng.finishEnabled = true := by
    simp only [State.readyForFinish]
    split
    · assumption
    · exact (Engine.finishEnabled_iff _).2 ⟨rfl, (by decide : (uint32 1#32 : Int) = sint32 1#32)⟩
  exact ⟨(State.sequencer_eq_finish _).2 hr, _, execFinish_eq_next.2 ⟨hr, rfl⟩⟩

end Sys2Proof.Machine
end

