-- ==== Sys2Proof/Tests/Slice0.lean ====
section
/-! SUPPORT. Tests with results taken from spec 95_test_vectors (the vector is named at each test) and 30_encoding, and
for every statement that has hypotheses a witness that meets them. -/

namespace Sys2Proof.Tests

open Sys2Proof Sys2Proof.Machine

/-! ### Small states -/

/-- A table that meets TABLE_KNOWN; its other entries are 0x00. -/
def table : Table := (((Vector.replicate 256 0x00#8).set 0x00 0x0C#8).set 0x0C 0xC0#8).set 0xFF 0x41#8

/-- An idle instance at ENGINE_BASE 0x40 with these parameters. -/
def idle (base size len : Word32) : Engine :=
  { Engine.resetAt 2#27 with BASE := base, SIZE := size, LEN := len }

/-- The same, with a transaction in progress: remainder `r`, `i` bytes folded. -/
def busy (base size len : Word32) (r : Byte) (i : Word32) : Engine :=
  { idle base size len with BUSY := true, R := r, I := i }

/-- A completed instance: `wr`, `nop` and `rd` vectors start here. -/
def completed (err : BitVec 4) (res : Byte) : Engine :=
  { idle 0x00002000#32 3#32 3#32 with DONE := true, ERR := err, RESULT := res }

/-- The memory of 95 sections 3 and 6: `[0x00, 0x00, 0x3F]` at 0x2000. -/
def memory : Memory := [(0x2000, 0x00#8), (0x2001, 0x00#8), (0x2002, 0x3F#8)]

/-- A machine with one instance, every read admitted. -/
def machine (e : Engine) : State where
  eng := e
  before := []
  after := []
  rom := table
  mem := memory
  admission := []
  readData := none
  inputs := []
  resetPin := false

/-- The machine with moves still to come. -/
def pending (e : Engine) (evs : List Event) : State := { machine e with inputs := evs }

/-- A machine whose platform does not admit a read of 0x2001 (V5.3). -/
def unadmitted (e : Engine) : State := { machine e with admission := [⟨0x2001, 0x2001, false⟩] }

/-- The state a step answers. -/
def next : Host.Outcome State Fault Refusal → Option State
  | .next s => some s
  | _ => none

/-- The host performs one access with this B word. -/
def access (e : Engine) (w : BitVec 38) : Option State := next (step (pending e [.access w]))

/-! ### WellFormed and decoding -/

/-- 30 R68: an offset that is another register's, or misaligned, is no reserved slot. -/
theorem test_wellformed_refuses_other_offsets :
    (Instr.rdRsv 0x04#5).wf = false ∧ (Instr.rdRsv 0x19#5).wf = false ∧ (Instr.wrRsv 0x14#5 0#32).wf = false ∧
      (Instr.wrRsv 0x1F#5 1#32).wf = false ∧ (Instr.rdRsv 0x18#5).wf = true ∧ (Instr.wrRsv 0x1C#5 0#32).wf = true := by
  decide

/-- 30 R63, R68; V4.1 to V4.4, V4.8 to V4.10, V4.19: the reads. -/
theorem test_decode_reads :
    decode (.busAccess 0b000000_00000000000000000000000000000000#38) = .ok .rdCtrl ∧
    decode (.busAccess 0b000100_00000000000000000000000000000000#38) = .ok .rdStatus ∧
    decode (.busAccess 0b001000_00000000000000000000000000000000#38) = .ok .rdBase ∧
    decode (.busAccess 0b001100_00000000000000000000000000000000#38) = .ok .rdSize ∧
    decode (.busAccess 0b010000_00000000000000000000000000000000#38) = .ok .rdLen ∧
    decode (.busAccess 0b010100_11111111111111111111111111111111#38) = .ok .rdResult ∧
    decode (.busAccess 0b011000_00000000000000000000000000000000#38) = .ok (.rdRsv 0x18#5) ∧
    decode (.busAccess 0b011100_00000000000000000000000000000000#38) = .ok (.rdRsv 0x1C#5) := by decide

/-- 30 R63, R68; V4.5 to V4.18, V4.20: the writes. -/
theorem test_decode_writes :
    decode (.busAccess 0x20FFFFFEF1#38) = .ok (.wrCtrl 0xFFFFFEF1#32) ∧
    decode (.busAccess 0x2400000000#38) = .ok (.wrStatus 0#32) ∧
    decode (.busAccess 0x2800002000#38) = .ok (.wrBase 0x00002000#32) ∧
    decode (.busAccess 0x2C00000003#38) = .ok (.wrSize 3#32) ∧
    decode (.busAccess 0x30FFFFFFFF#38) = .ok (.wrLen 0xFFFFFFFF#32) ∧
    decode (.busAccess 0x3400000055#38) = .ok (.wrResult 0x55#32) ∧
    decode (.busAccess 0x3800000000#38) = .ok (.wrRsv 0x18#5 0#32) ∧
    decode (.busAccess 0x3CFFFFFFFF#38) = .ok (.wrRsv 0x1C#5 0xFFFFFFFF#32) := by decide

/-- V4.23 to V4.28, V2.1: commands and micro-operations. -/
theorem test_decode_commands_and_micro_operations :
    decode (.command 0x00000000#32) = .ok .nop ∧ decode (.command 0x00000101#32) = .ok (.compute true) ∧
    decode (.command 0x00000001#32) = .ok (.compute false) ∧ decode (.command 0x0000000F#32) = .error .reservedCommand ∧
    decode (.microOp 0x000#10) = .ok .init ∧ decode (.microOp 0x10C#10) = .ok (.update 0x0C#8) ∧
    decode (.microOp 0x1A5#10) = .ok (.update 0xA5#8) ∧ decode (.microOp 0x200#10) = .ok .finish ∧
    decode (.microOp 0x300#10) = .error .reservedMicroOp ∧ decode (.microOp 0x201#10) = .error .reservedMicroOp := by
  decide

/-- V4.21, V4.22: misaligned offsets. -/
theorem test_decode_refuses_misaligned :
    decode (.busAccess 0x0100000000#38) = .error .misalignedAccess ∧
    decode (.busAccess 0x2600000000#38) = .error .misalignedAccess := by decide

/-- The words of the opcode table's numbering, one of each format. -/
theorem test_decodeTableWord :
    decodeTableWord 38 0x2800002000 = some (.wrBase 0x00002000#32) ∧
    decodeTableWord 32 0x00000101 = some (.compute true) ∧ decodeTableWord 10 0x1A5 = some (.update 0xA5#8) := by
  decide

/-- 30 R68 to R70: no two rows of the opcode map overlap. -/
theorem test_opcode_rows_do_not_overlap : opcodeRows.Pairwise fun r q => r.overlaps q = false := by decide

/-! ### One step of each instruction -/

/-- V4.3: CTRL reads 0 right after a COMPUTE. -/
theorem test_rdCtrl : (access (busy 0x2000#32 3#32 3#32 0x00#8 0#32) 0x0000000000#38).map (·.readData) =
    some (some 0x00000000#32) := by decide

/-- V4.13: reserved bits set, OP = 1, BUFV = 0. -/
theorem test_wrCtrl_ignores_reserved_bits :
    (access (idle 0x2000#32 1#32 1#32) 0x20FFFFFEF1#38).map (·.eng.statusWord) = some 0x00000022#32 := by decide

/-- V4.12: a reserved OP changes nothing. -/
theorem test_wrCtrl_reserved_op :
    (access (completed 0x0#4 0x0C#8) 0x2000000105#38).map (·.eng) = some (completed 0x0#4 0x0C#8) := by decide

/-- V4.16. -/
theorem test_rdStatus_busy : (access (busy 0x2000#32 2#32 2#32 0x00#8 0#32) 0x0400000000#38).map (·.readData) =
    some (some 0x00000001#32) := by decide

/-- 40 R77: after NullBuffer. -/
theorem test_rdStatus_nullBuffer : (access (completed 0x2#4 0x00#8) 0x0400000000#38).map (·.readData) =
    some (some 0x00000022#32) := by decide

/-- V4.6. -/
theorem test_wrStatus : (access (completed 0x1#4 0x00#8) 0x2400000000#38).map (·.eng.statusWord) =
    some 0x00000012#32 := by decide

/-- 40 R78. -/
theorem test_rdBase : (access (idle 0x2000#32 3#32 2#32) 0x0800000000#38).map (·.readData) =
    some (some 0x00002000#32) := by decide

/-- V4.9. -/
theorem test_wrBase : (access (idle 0#32 0#32 0#32) 0x2800002000#38).map (·.eng.BASE) = some 0x00002000#32 := by decide

/-- V4.14: ignored while BUSY. -/
theorem test_wrBase_locked : (access (busy 0x2000#32 2#32 2#32 0x00#8 0#32) 0x2800005000#38).map (·.eng.BASE) =
    some 0x00002000#32 := by decide

/-- V4.10. -/
theorem test_rdSize : (access (idle 0x2000#32 3#32 2#32) 0x0C00000000#38).map (·.readData) =
    some (some 0x00000003#32) := by decide

/-- V4.10. -/
theorem test_wrSize : (access (idle 0#32 0#32 0#32) 0x2C00000003#38).map (·.eng.SIZE) = some 0x00000003#32 := by decide

/-- V4.8. -/
theorem test_rdLen : (access (idle 0#32 0#32 0xFFFFFFFF#32) 0x1000000000#38).map (·.readData) =
    some (some 0xFFFFFFFF#32) := by decide

/-- V4.17: takes effect in DONE, and STATUS stays. -/
theorem test_wrLen_in_done : (access (completed 0x1#4 0x00#8) 0x3000000002#38).map (fun t => (t.eng.LEN, t.eng.statusWord)) =
    some (0x00000002#32, 0x00000012#32) := by decide

/-- V4.14. -/
theorem test_wrLen_locked : (access (busy 0x2000#32 2#32 2#32 0x00#8 0#32) 0x3000000001#38).map (·.eng.LEN) =
    some 0x00000002#32 := by decide

/-- P1 line 7. -/
theorem test_rdResult : (access (completed 0x0#4 0x41#8) 0x1400000000#38).map (·.readData) =
    some (some 0x00000041#32) := by decide

/-- V4.7. -/
theorem test_wrResult : (access (completed 0x0#4 0x0C#8) 0x3400000055#38).map (·.eng.RESULT) = some 0x0C#8 := by decide

/-- V4.4. -/
theorem test_rdRsv : (access (completed 0x0#4 0x0C#8) 0x1C00000000#38).map (·.readData) = some (some 0#32) := by decide

/-- V4.5. -/
theorem test_wrRsv : (access (completed 0x0#4 0x0C#8) 0x3CFFFFFFFF#38).map (·.eng) = some (completed 0x0#4 0x0C#8) := by decide

/-- V4.11. -/
theorem test_nop : (access (completed 0x0#4 0x0C#8) 0x2000000000#38).map (·.eng) = some (completed 0x0#4 0x0C#8) := by decide

/-- V3.9: `BASE + n > 2^32`. -/
theorem test_compute_beyond_address_space :
    (next (exec (.compute true) (machine (idle 0xFFFFFFFF#32 2#32 2#32)))).map (·.eng.statusWord) =
      some 0x00000012#32 := by decide

/-- V3.6: the negative length is checked before NullBuffer. -/
theorem test_compute_negative_before_null :
    (next (exec (.compute false) (machine (idle 0#32 0#32 0xFFFFFFFF#32)))).map (·.eng.statusWord) =
      some 0x00000012#32 := by decide

/-- 41 R101's example. -/
theorem test_init : (next (exec .init (machine { idle 0#32 0#32 0#32 with R := 0x41#8, I := 7#32 }))).map
    (fun t => (t.eng.R, t.eng.I)) = some (0x00#8, 0#32) := by decide

/-- S11: R = 0xC0 and b = 0x3F give idx 0xFF and R = 0x41 (the third byte of V2.4). -/
theorem test_update : (next (step (machine (busy 0x2000#32 3#32 3#32 0xC0#8 2#32)))).map
    (fun t => (t.eng.R, t.eng.I)) = some (0x41#8, 3#32) := by decide

/-- V2.2: b = R gives T[0x00]. -/
theorem test_update_index_zero : (next (exec (.update 0x0C#8) (machine (busy 0x2000#32 2#32 2#32 0x0C#8 1#32)))).map
    (·.eng.R) = some 0x0C#8 := by decide

/-- 41 R103's example. -/
theorem test_finish : (next (step (machine (busy 0x2000#32 2#32 2#32 0xC0#8 2#32)))).map
    (fun t => (t.eng.statusWord, t.eng.RESULT)) = some (0x00000002#32, 0xC0#8) := by decide

/-! ### Memory, the platform and reset -/

/-- V5.2: a host write to the buffer while BUSY is made. -/
theorem test_host_write : (next (step (pending (busy 0x2000#32 2#32 2#32 0x00#8 0#32) [.memWrite 0x2001#32 0xFF#8]))).map
    (·.mem) = some [(0x2000, 0x00#8), (0x2001, 0xFF#8), (0x2002, 0x3F#8)] := by decide

/-- V5.3: the engine has no step, and STATUS reads 1. -/
theorem test_unadmitted_read : (next (step (unadmitted (busy 0x2000#32 2#32 2#32 0x0C#8 1#32)))).map
    (fun t => (t.eng.R, t.eng.I, t.eng.statusWord)) = some (0x0C#8, 1#32, 0x00000001#32) := by decide

/-- V5.4: reset lifts the stuck state; memory stays. -/
theorem test_reset : (next (step { unadmitted (busy 0x2000#32 2#32 2#32 0x0C#8 1#32) with resetPin := true })).map
    (fun t => (t.eng, t.mem)) = some (idle 0#32 0#32 0#32, memory) := by decide

/-- 20 R53: the address ENGINE_BASE + 0x08 reaches the second instance's BASE, not the first's. -/
theorem test_bus_access : (next (step { pending (idle 0#32 0#32 0#32) [.bus ⟨0x00000068#32, 32, true, 0x2000#32⟩] with
    after := [Engine.resetAt 3#27] })).map (fun t => (t.eng.window, t.eng.BASE, t.before.map (·.BASE))) =
      some (3#27, 0x2000#32, [0#32]) := by decide

/-- 30 R74: `crc8` over P1's buffer, with one more poll, is P1's lines. -/
theorem test_crc8_expansion : (Pseudo.expand (.crc8 0x2000 3 3 1)).map Asm.encoding =
    [.busAccess 0x2800002000#38, .busAccess 0x2C00000003#38, .busAccess 0x3000000003#38, .busAccess 0x2000000101#38,
     .busAccess 0x0400000000#38, .busAccess 0x0400000000#38, .busAccess 0x0400000000#38,
     .busAccess 0x1400000000#38] := by decide

/-- 30 R73: a negative number stands for its two's complement. -/
theorem test_asm_negative : Asm.encoding (.wr .LEN (-1)) = .busAccess 0x30FFFFFFFF#38 := by decide

/-- A word placed by withFetchWord runs in the next step, from reset too. -/
theorem test_withFetchWord :
    (next (step (State.reset.withFetchWord 40 0x2800002000))).map (·.eng.BASE) = some 0x00002000#32 ∧
    (next (step (State.reset.withFetchWord 32 0x00000001))).map (·.eng.DONE) = some true ∧
    (next (step (State.reset.withFetchWord 16 0x1A5))).map (·.eng.I) = some 1#32 ∧
    (next (step (State.reset.withFetchWord 16 0x200))).map (·.eng.DONE) = some true ∧
    (next (step (State.reset.withFetchWord 16 0x000))).map (·.eng.I) = some 0#32 := by decide

/-! ### Witnesses: a state and operands that meet all hypotheses of each statement together -/

/-- A transaction over one byte at the last address: `BASE + n = 2^32` (V3.8). -/
def topByte : State := machine (idle 0xFFFFFFFF#32 1#32 1#32)

/-- The transaction of P1. -/
def p1 : State := machine (idle 0x2000#32 3#32 3#32)

/-- P1's transaction after two bytes. -/
def p1Late : State := machine (busy 0x2000#32 3#32 3#32 0xC0#8 2#32)

/-- V5.3 after one byte: stuck. -/
def stuck : State := unadmitted (busy 0x2000#32 2#32 2#32 0x0C#8 1#32)

theorem inv_of_fields {e : Engine}
    (h1 : e.BUSY = true → e.DONE = false ∧ e.ERR = 0x0#4 ∧ e.RESULT = 0x00#8 ∧ (uint32 e.I : Int) ≤ sint32 e.LEN ∧
      1 ≤ sint32 e.LEN ∧ sint32 e.LEN ≤ uint32 e.SIZE ∧ (uint32 e.BASE : Int) + sint32 e.LEN ≤ Config.addrSpace)
    (h2 : e.DONE = true → e.ERR ≠ 0x0#4 → e.RESULT = 0x00#8)
    (h3 : e.BUSY = false → e.DONE = false → e.R = 0x00#8 ∧ e.I = 0#32 ∧ e.ERR = 0x0#4 ∧ e.RESULT = 0x00#8)
    (h4 : e.ERR = 0x0#4 ∨ e.ERR = 0x1#4 ∨ e.ERR = 0x2#4) : e.Inv := ⟨h1, h2, h3, h4⟩

theorem inv_idle : (idle 0x2000#32 3#32 0xFFFFFFFF#32).Inv :=
  inv_of_fields (by decide) (by decide) (by decide) (by decide)

theorem inv_busy : p1Late.eng.Inv := inv_of_fields (by decide) (by decide) (by decide) (by decide)

theorem inv_ok : (completed 0x0#4 0x41#8).Inv := inv_of_fields (by decide) (by decide) (by decide) (by decide)

theorem inv_invalidLength : (completed 0x1#4 0x00#8).Inv :=
  inv_of_fields (by decide) (by decide) (by decide) (by decide)

theorem inv_nullBuffer : (completed 0x2#4 0x00#8).Inv := inv_of_fields (by decide) (by decide) (by decide) (by decide)

theorem inv_stuck : stuck.eng.Inv := inv_of_fields (by decide) (by decide) (by decide) (by decide)

theorem inv_p1Late : p1Late.Inv :=
  ⟨fun e he => by rw [List.mem_singleton.1 (show e ∈ [p1Late.eng] from he)]; exact inv_busy, by decide⟩

theorem tableKnown_table : TableKnown table := by unfold TableKnown; decide

theorem admitted_p1 (n : Nat) : BufferAdmitted p1 0x2000 n := fun _ _ => rfl

theorem admitted_topByte (n : Nat) : BufferAdmitted topByte 0xFFFFFFFF n := fun _ _ => rfl

/-- Encodings: a well-formed instruction with an operand; a decoded word; NOP, COMPUTE and the first and last reserved
command, each with every ignored bit set. -/
theorem witness_DecodeEncodeRoundTrip : (Instr.wrRsv 0x1C#5 0xFFFFFFFF#32).wf = true := by decide

theorem witness_DecodedInstructionsAreWellFormed : decode (.busAccess 0x1C00000000#38) = .ok (.rdRsv 0x1C#5) := by decide

theorem witness_ReservedCommandBitsAreIgnored :
    decodeCommand 0xFFFFFFF0#32 = .ok .nop ∧ decodeCommand 0xFFFFFFF1#32 = .ok (.compute true) ∧
    decodeCommand 0xFFFFFFF2#32 = .error .reservedCommand ∧ decodeCommand 0x0000000F#32 = .error .reservedCommand := by
  decide

/-- A 16-bit access to CTRL, and 32-bit accesses at the first and last misaligned offsets. -/
theorem witness_SpellingsWithoutMeaningAreRefused_bus :
    State.focus (windowOf 0x00000040#32) { pending (idle 0#32 0#32 0#32) [.bus ⟨0x00000040#32, 16, true, 1#32⟩] with
      inputs := [] } = some (machine (idle 0#32 0#32 0#32)) ∧ (16 ≠ 32) ∧
    State.focus (windowOf 0x00000041#32) (machine (idle 0#32 0#32 0#32)) = some (machine (idle 0#32 0#32 0#32)) ∧
    State.focus (windowOf 0x0000005F#32) (machine (idle 0#32 0#32 0#32)) = some (machine (idle 0#32 0#32 0#32)) ∧
    (0x00000041#32).toNat % 4 ≠ 0 ∧ (0x0000005F#32).toNat % 4 ≠ 0 :=
  ⟨rfl, by decide, rfl, rfl, by decide, by decide⟩

theorem witness_SpellingsWithoutMeaningAreRefused_words :
    (0x0100000000#38).toNat / 2 ^ 32 % 4 ≠ 0 ∧ (0x3FFFFFFFFF#38).toNat / 2 ^ 32 % 4 ≠ 0 ∧
    0x300 ≤ (0x300#10).toNat ∧ 0x300 ≤ (0x3FF#10).toNat ∧ (0x000 < (0x001#10).toNat ∧ (0x001#10).toNat < 0x100) ∧
    (0x0FF#10).toNat < 0x100 ∧ (0x200 < (0x201#10).toNat ∧ (0x201#10).toNat < 0x300) ∧ (0x2FF#10).toNat < 0x300 ∧
    p1Late.sequencer = some (.update 0x3F#8) := by decide

/-- The routes of a step: a B word, the sequencer's move, a U word (UPDATE, and INIT). -/
theorem witness_StepRunsTheDecodedInstruction :
    (pending (idle 0#32 0#32 0#32) [.access 0x2800002000#38]).inputs = [.access 0x2800002000#38] ∧
    decode (.busAccess 0x2800002000#38) = .ok (.wrBase 0x2000#32) ∧
    (pending (busy 0x2000#32 3#32 3#32 0xC0#8 2#32) [.engine]).inputs = [.engine] ∧
    (pending (busy 0x2000#32 3#32 3#32 0xC0#8 2#32) [.engine]).sequencer = some (.update 0x3F#8) ∧
    (pending (busy 0x2000#32 3#32 3#32 0xC0#8 2#32) [.micro 0x13F#10]).resetPin = false ∧
    decode (.microOp 0x13F#10) = .ok (.update 0x3F#8) ∧ decode (.microOp 0x000#10) = .ok .init ∧
    (pending (idle 0#32 0#32 0#32) [.micro 0x000#10]).eng.BUSY = false := by decide

/-- The words placed: a B word, the commands, and the first and last reserved command. -/
theorem witness_StepRunsTheDecodedInstruction_placed :
    decode (.busAccess 0x3CFFFFFFFF#38) = .ok (.wrRsv 0x1C#5 0xFFFFFFFF#32) ∧
    decode (.command 0xFFFFFFF0#32) = .ok .nop ∧ decode (.command 0x00000101#32) = .ok (.compute true) ∧
    decode (.command 0x00000002#32) = .error .reservedCommand ∧
    decode (.command 0x0000000F#32) = .error .reservedCommand := by decide

/-- The two offsets of the reserved slots, and no other, meet the hypothesis. -/
theorem witness_CtrlAndReservedSlotsReadZero : ∀ off : BitVec 5,
    (off = 0x18#5 ∨ off = 0x1C#5) ↔ isReservedOffset off = true := by decide

theorem witness_ReadOnlyWritesAreIgnored : (0x18#5 = 0x18#5 ∨ 0x18#5 = 0x1C#5) ∧ (0x1C#5 = 0x18#5 ∨ 0x1C#5 = 0x1C#5) := by
  decide

/-- A machine with a second instance, at ENGINE_BASE 0x60, the first addressed. -/
def twoEngines (evs : List Event) : State := { pending (idle 0#32 0#32 0#32) evs with after := [Engine.resetAt 3#27] }

/-- The same with the second addressed. -/
def secondAddressed (evs : List Event) : State :=
  { pending (Engine.resetAt 3#27) evs with before := [idle 0#32 0#32 0#32] }

/-- Clause 1: an access at the other instance's BASE, and one that reads the last slot of the one that is addressed. -/
theorem witness_BusAddressReachesItsWindow_bus :
    (twoEngines [.bus ⟨0x00000068#32, 32, true, 0x2000#32⟩]).inputs = [.bus ⟨0x00000068#32, 32, true, 0x2000#32⟩] ∧
    State.focus (windowOf 0x00000068#32) (twoEngines []) = some (secondAddressed []) ∧
    decode (.busAccess (busWord true (offsetOf 0x00000068#32) 0x2000#32)) = .ok (.wrBase 0x2000#32) ∧
    State.focus (windowOf 0x0000005C#32) (twoEngines []) = some (twoEngines []) ∧
    decode (.busAccess (busWord false (offsetOf 0x0000005C#32) 0#32)) = .ok (.rdRsv 0x1C#5) :=
  ⟨rfl, rfl, by decide, rfl, by decide⟩

/-- Clauses 2 and 3: a select of the other instance, which has the window. -/
theorem witness_BusAddressReachesItsWindow_select :
    (twoEngines [.select 3#27]).inputs = [.select 3#27] ∧
    State.focus 3#27 (twoEngines []) = some (secondAddressed []) ∧ ∃ e ∈ (twoEngines []).engines, e.window = 3#27 :=
  ⟨rfl, rfl, Engine.resetAt 3#27, by simp [State.engines, twoEngines], rfl⟩

/-- Clause 4: the second instance of two, addressed, with an access to its STATUS. -/
theorem witness_BusAddressReachesItsWindow :
    (∀ e ∈ [Engine.resetAt 3#27], e.window ≠ (idle 0#32 0#32 0#32).window) ∧
    (idle 0#32 0#32 0#32).engineBase + (0x04#5).setWidth 32 = 0x00000044#32 := by decide

/-- BUSY = 0, with BASE and LEN for the three failures of a later COMPUTE: the smallest BASE that is too near 2^32, the
smallest positive length with SIZE = 0, and the largest and smallest negative length. -/
theorem witness_ParameterWrites :
    (idle 0#32 3#32 2#32).BUSY = false ∧ (0 < sint32 2#32 ∧ 2 ^ 32 < uint32 0xFFFFFFFF#32 + sint32 2#32) ∧
    0 < sint32 1#32 ∧ sint32 0xFFFFFFFF#32 < 0 ∧ sint32 0x80000000#32 < 0 := by decide

theorem witness_ParameterRegistersReadBack : p1.eng.BUSY = false := by decide

theorem witness_StatusReads :
    (p1Late.eng.Inv ∧ p1Late.eng.BUSY = true) ∧
    ((completed 0x0#4 0x41#8).BUSY = false ∧ (completed 0x0#4 0x41#8).DONE = true ∧
      (completed 0x0#4 0x41#8).ERR = 0x0#4) ∧
    ((completed 0x1#4 0x00#8).BUSY = false ∧ (completed 0x1#4 0x00#8).DONE = true) ∧
    (completed 0x2#4 0x00#8).ERR = 0x2#4 := ⟨⟨inv_busy, by decide⟩, by decide, by decide, by decide⟩

theorem witness_StatusHasFiveLegalValues :
    (idle 0x2000#32 3#32 0xFFFFFFFF#32).Inv ∧ p1Late.eng.Inv ∧ (completed 0x0#4 0x41#8).Inv ∧
    (completed 0x1#4 0x00#8).Inv ∧ (completed 0x2#4 0x00#8).Inv :=
  ⟨inv_idle, inv_busy, inv_ok, inv_invalidLength, inv_nullBuffer⟩

theorem witness_ResultReads :
    (p1Late.eng.Inv ∧ p1Late.eng.BUSY = true) ∧
    ((idle 0x2000#32 3#32 0xFFFFFFFF#32).Inv ∧ (idle 0x2000#32 3#32 0xFFFFFFFF#32).DONE = false) ∧
    ((completed 0x1#4 0x00#8).Inv ∧ (completed 0x1#4 0x00#8).ERR ≠ 0x0#4) :=
  ⟨⟨inv_busy, by decide⟩, ⟨inv_idle, by decide⟩, ⟨inv_invalidLength, by decide⟩⟩

theorem witness_WindowBytesAreLittleEndian : (0 : Nat) < 4 ∧ 3 < 4 := by decide

/-- OP at the ends of its ranges: 0, 1, 2 and 15, the other bits set. -/
theorem witness_CtrlWriteIssuesItsCommand :
    (0xFFFFFFF0#32).toNat % 16 = 0 ∧ (0xFFFFFEF1#32).toNat % 16 = 1 ∧ 2 ≤ (0x00000002#32).toNat % 16 ∧
    2 ≤ (0xFFFFFFFF#32).toNat % 16 := by decide

theorem witness_NopChangesNothing : 0xFFFFFFF0#32 &&& 0x0000000F#32 = 0x00000000#32 := by decide

theorem witness_ComputeWhileBusyIsIgnored : p1Late.eng.BUSY = true := by decide

/-- V3.1, V3.2, V3.12, V3.14 and V3.9, and an instruction that makes ERR the code. -/
theorem witness_ComputeReportsInvalidLength :
    (idle 0x2000#32 3#32 0xFFFFFFFF#32).BUSY = false ∧ (0xFFFFFFFF#32).toInt < 0 ∧ (0x80000000#32).toInt < 0 ∧
    ((3#32).toNat : Int) < (4#32).toInt ∧ ((0#32).toNat : Int) < (1#32).toInt ∧
    (0 ≤ (2#32).toInt ∧ (2#32).toInt ≤ (2#32).toNat ∧ 2 ^ 32 < (0xFFFFFFFF#32).toNat + (2#32).toInt) ∧
    (next (exec (.wrCtrl 0x101#32) (machine (idle 0x2000#32 3#32 4#32)))).map (·.eng.ERR) = some 0x1#4 := by decide

/-- V3.7, V3.5 and V3.6, and an instruction that makes ERR the code. -/
theorem witness_ComputeReportsNullBuffer :
    (idle 0#32 0#32 1#32).BUSY = false ∧ 0 < (1#32).toInt ∧ (0#32).toInt = 0 ∧ (0xFFFFFFFF#32).toInt < 0 ∧
    (next (exec (.wrCtrl 0x001#32) (machine (idle 0#32 0#32 1#32)))).map (·.eng.ERR) = some 0x2#4 := by decide

/-- V3.10. -/
theorem witness_LengthZeroCompletesAtAccept :
    (idle 0xFFFFFFFF#32 0#32 0#32).BUSY = false ∧ (idle 0xFFFFFFFF#32 0#32 0#32).LEN = 0#32 := by decide

/-- V3.8: LEN = SIZE = 1 and BASE + LEN = 2^32; and V3.11. -/
theorem witness_ComputeStartsTransaction :
    topByte.eng.BUSY = false ∧ 1 ≤ topByte.eng.LEN.toInt ∧ topByte.eng.LEN.toInt ≤ topByte.eng.SIZE.toNat ∧
    topByte.eng.BASE.toNat + topByte.eng.LEN.toInt = 2 ^ 32 ∧
    p1.eng.LEN.toInt ≤ p1.eng.SIZE.toNat ∧ p1.eng.BASE.toNat + p1.eng.LEN.toInt ≤ 2 ^ 32 := by decide

theorem witness_InitClearsRemainderAndIndex : p1.eng.BUSY = false := by decide

/-- S11's state, one before the end of the buffer, under TABLE_KNOWN; and a state in which b = R. -/
theorem witness_UpdateFoldsOneByte :
    p1Late.eng.BUSY = true ∧ p1Late.eng.I.toNat < p1Late.eng.LEN.toInt ∧
    p1Late.eng.BASE.toNat + p1Late.eng.I.toNat < 2 ^ 32 ∧
    admits p1Late.admission (p1Late.eng.BASE.toNat + p1Late.eng.I.toNat) = true ∧
    p1Late.eng.R = 0xC0#8 ∧ TableKnown p1Late.rom ∧
    (stuck.eng.BUSY = true ∧ stuck.eng.I.toNat < stuck.eng.LEN.toInt ∧
      stuck.eng.BASE.toNat + stuck.eng.I.toNat < 2 ^ 32 ∧
      admits stuck.admission (stuck.eng.BASE.toNat + stuck.eng.I.toNat) = false) :=
  ⟨by decide, by decide, by decide, by decide, by decide, tableKnown_table, by decide⟩

/-- UPDATE in IDLE, and at I = LEN; a read at 2^32; a read not admitted; FINISH in IDLE and one byte early. -/
theorem witness_MicroOperationsStopWhereNotEnabled :
    p1.eng.BUSY = false ∧ (3#32).toInt ≤ (3#32).toNat ∧
    ((busy 0xFFFFFFFF#32 2#32 2#32 0x00#8 1#32).I.toNat < (2#32).toInt ∧
      2 ^ 32 ≤ (0xFFFFFFFF#32).toNat + (1#32).toNat) ∧
    admits stuck.admission (stuck.eng.BASE.toNat + stuck.eng.I.toNat) = false ∧
    (p1Late.eng.I.toNat : Int) ≠ p1Late.eng.LEN.toInt := by decide

theorem witness_FinishPublishesRemainder :
    (busy 0x2000#32 2#32 2#32 0xC0#8 2#32).BUSY = true ∧ ((2#32).toNat : Int) = (2#32).toInt ∧
    (busy 0x2000#32 2#32 2#32 0xC0#8 2#32).Inv ∧
    (machine (busy 0x2000#32 2#32 2#32 0xC0#8 2#32)).sequencer = some .finish :=
  ⟨by decide, by decide, inv_of_fields (by decide) (by decide) (by decide) (by decide), by decide⟩

theorem witness_SequencerTakesItsOneEnabledStep :
    p1Late.resetPin = false ∧ p1Late.inputs = [] ∧
    (p1Late.eng.BUSY = true ∧ (p1Late.eng.I.toNat : Int) < p1Late.eng.LEN.toInt ∧
      p1Late.eng.BASE.toNat + p1Late.eng.I.toNat < 2 ^ 32 ∧
      admits p1Late.admission (p1Late.eng.BASE.toNat + p1Late.eng.I.toNat) = true) ∧
    (machine (busy 0x2000#32 2#32 2#32 0xC0#8 2#32)).inputs = [] ∧ p1.eng.BUSY = false := by decide

theorem witness_GeneralUpdateFormReducesForWidthEight :
    p1Late.eng.BUSY = true ∧ p1Late.eng.I.toNat < p1Late.eng.LEN.toInt ∧
    p1Late.eng.BASE.toNat + p1Late.eng.I.toNat < 2 ^ 32 ∧
    admits p1Late.admission (p1Late.eng.BASE.toNat + p1Late.eng.I.toNat) = true := by decide

/-- P1's buffer, with k at both ends of its range. -/
theorem witness_PartialTransactionHoldsThePrefixFold :
    (p1.eng.BUSY = false ∧ p1.resetPin = false ∧ p1.inputs = [] ∧ p1.eng.LEN.toInt = (3 : Nat) ∧
      3 ≤ p1.eng.SIZE.toNat ∧ p1.eng.BASE.toNat + 3 ≤ 2 ^ 32) ∧ BufferAdmitted p1 p1.eng.BASE.toNat 3 ∧
    (∃ s1, exec (.compute true) p1 = .next s1) ∧ 0 ≤ 3 ∧ 3 ≤ 3 :=
  ⟨by decide, admitted_p1 3, ⟨_, rfl⟩, by decide, by decide⟩

/-- The buffer at the top of the address space: n = SIZE and BASE + n = 2^32. -/
theorem witness_TransactionComputesCrc :
    (topByte.eng.BUSY = false ∧ topByte.resetPin = false ∧ topByte.inputs = [] ∧ topByte.eng.LEN.toInt = (1 : Nat) ∧
      1 ≤ topByte.eng.SIZE.toNat ∧ topByte.eng.BASE.toNat + 1 ≤ 2 ^ 32) ∧
    BufferAdmitted topByte topByte.eng.BASE.toNat 1 ∧ (∃ s1, exec (.compute true) topByte = .next s1) :=
  ⟨by decide, admitted_topByte 1, ⟨_, rfl⟩⟩

/-- V5.1: LEN = 3 and SIZE = 5; the bytes past the length are not read. -/
theorem witness_TransactionReadsItsBufferOnceInOrder :
    (idle 0x2000#32 5#32 3#32).BUSY = false ∧ (3#32).toInt = (3 : Nat) ∧ 3 ≤ (5#32).toNat ∧
    BufferAdmitted (machine (idle 0x2000#32 5#32 3#32)) 0x2000 3 ∧
    (∃ s1, exec (.compute true) (machine (idle 0x2000#32 5#32 3#32)) = .next s1 ∧
      readTrace 6 s1 = [0x2000, 0x2001, 0x2002]) :=
  ⟨by decide, by decide, by decide, fun _ _ => rfl, ⟨_, rfl, by decide⟩⟩

/-- V2.4's U words. -/
theorem witness_SequencerProducesUpdatesThenFinish :
    p1.eng.BUSY = false ∧ BufferAdmitted p1 p1.eng.BASE.toNat 3 ∧
    (∃ s1, exec (.compute true) p1 = .next s1 ∧
      moveTrace 5 s1 = [.update 0x00#8, .update 0x00#8, .update 0x3F#8, .finish]) :=
  ⟨by decide, admitted_p1 3, ⟨_, rfl, by decide⟩⟩

/-- P1's transaction with a host poll, a locked write and host writes just outside the buffer between its steps; and
an error. -/
theorem witness_InterleavedTransactionHasTheContractsOutcome :
    (∀ ev ∈ [Event.access 0x0400000000#38, .access 0x3000000001#38, .memWrite 0x1FFF#32 0xFF#8, .engine,
      .memWrite 0x2003#32 0xFF#8, .memRead 0x2001#32], ev.quiet 0x2000 3 = true) ∧
    validate true p1.eng.BASE p1.eng.SIZE p1.eng.LEN = .ok 3 ∧ BufferAdmitted p1 p1.eng.BASE.toNat 3 ∧
    validate true 0x2000#32 3#32 4#32 = .err .invalidLength :=
  ⟨by decide, by decide, admitted_p1 3, by decide⟩

/-- Two machines that agree on the buffer and differ in everything else. -/
theorem witness_OutcomeDependsOnTheBufferAlone :
    let s := machine { completed 0x0#4 0x41#8 with LEN := 2#32 }
    let t := { machine { completed 0x2#4 0x00#8 with LEN := 2#32, R := 0x55#8 } with
      mem := [(0x2000, 0x00#8), (0x2001, 0x00#8), (0x2002, 0xFF#8)], admission := [⟨0, 0x1FFF, false⟩] }
    s.eng.BUSY = false ∧ t.eng.BUSY = false ∧ s.eng.BASE = t.eng.BASE ∧ s.eng.SIZE = t.eng.SIZE ∧
    s.eng.LEN = t.eng.LEN ∧ s.rom = t.rom ∧ s ≠ t ∧
    (∀ j : Nat, (j : Int) < s.eng.LEN.toInt →
      s.mem.byte (s.eng.BASE.toNat + j) = t.mem.byte (s.eng.BASE.toNat + j) ∧
      admits s.admission (s.eng.BASE.toNat + j) = admits t.admission (s.eng.BASE.toNat + j)) := by
  refine ⟨rfl, rfl, rfl, rfl, rfl, rfl, ?_, ?_⟩
  · intro h
    exact absurd (congrArg (·.eng.R) h) (by decide)
  · intro j hj
    have h2 : j < 2 := by exact_mod_cast (show (j : Int) < 2 from hj)
    interval_cases j <;> exact ⟨rfl, rfl⟩

theorem witness_AcceptForgetsThePast : (completed 0x1#4 0x00#8).BUSY = false := by decide

theorem witness_ChecksumsDoNotChain : TableKnown table := tableKnown_table

theorem witness_AppendedRemainderGivesEntryZero : TableKnown table ∧ crc8 table [0xFF#8] = 0x41#8 :=
  ⟨tableKnown_table, by decide⟩

theorem witness_EveryStepKeepsTheInvariants : p1Late.Inv ∧ ∃ t, step p1Late = .next t := ⟨inv_p1Late, ⟨_, rfl⟩⟩

theorem witness_RomAndPlatformNeverChange : ∃ t, step { p1Late with resetPin := true } = .next t := ⟨_, rfl⟩

theorem witness_OnlyTheHostWritesMemory :
    ∃ t, step (pending (idle 0#32 0#32 0#32) [.memWrite 0xFFFFFFFF#32 0xFF#8]) = .next t := ⟨_, rfl⟩

/-- A read of the byte written, and of its neighbour. -/
theorem witness_HostMemoryReadsSeeTheLastWrite :
    (pending (idle 0#32 0#32 0#32) [.memWrite 0x2001#32 0xFF#8, .memRead 0x2001#32]).inputs =
      .memWrite 0x2001#32 0xFF#8 :: .memRead 0x2001#32 :: [] ∧
    (pending (idle 0#32 0#32 0#32) [.memWrite 0x2001#32 0xFF#8, .memRead 0x2002#32]).resetPin = false := by decide

theorem witness_InstructionsChangeOnlyTheirInstance : ∃ t, exec (.update 0x3F#8) p1Late = .next t := ⟨_, rfl⟩

theorem witness_HostCannotDisturbARunningTransaction :
    p1Late.eng.BUSY = true ∧ decode (.busAccess 0x2000000101#38) = .ok (.wrCtrl 0x101#32) := by decide

/-- A locked write to LEN, while the addressed instance, number 0, is BUSY. -/
theorem witness_ParametersStayConstantWhileBusy :
    let s := pending (busy 0x2000#32 2#32 2#32 0x00#8 0#32) [.access 0x3000000001#38]
    (∃ t, step s = .next t) ∧ s.nextEvent.1 ≠ .reset ∧ s.engines[0]? = some s.eng ∧ s.eng.BUSY = true :=
  ⟨⟨_, rfl⟩, by decide, rfl, rfl⟩

/-- The accept from IDLE, FINISH from BUSY, and the accept from DONE. -/
theorem witness_PhaseMovesOnlyAsTheRulesSay :
    let s := pending (idle 0x2000#32 3#32 3#32) [.access 0x2000000101#38]
    let t := machine (busy 0x2000#32 2#32 2#32 0xC0#8 2#32)
    let u := pending (completed 0x1#4 0x00#8) [.access 0x2000000101#38]
    ((next (step s)).map (·.eng.BUSY) = some true ∧ s.nextEvent.1 ≠ .reset ∧ s.engines[0]? = some s.eng) ∧
    ((next (step t)).map (·.eng.DONE) = some true ∧ t.nextEvent.1 ≠ .reset ∧ t.engines[0]? = some t.eng) ∧
    ((next (step u)).map (·.eng.BUSY) = some true ∧ u.nextEvent.1 ≠ .reset ∧ u.engines[0]? = some u.eng) := by decide

/-- An accept that changes ERR: from 0x0 to 0x1, and from 0x2 to 0x0. -/
theorem witness_ErrorsComeOnlyFromAccept :
    let s := pending (idle 0x2000#32 3#32 0xFFFFFFFF#32) [.access 0x2000000101#38]
    let u := pending (completed 0x2#4 0x00#8) [.access 0x2000000101#38]
    (s.eng.Inv ∧ (next (step s)).map (·.eng.ERR) = some 0x1#4 ∧ s.nextEvent.1 ≠ .reset) ∧
    (u.eng.Inv ∧ (next (step u)).map (·.eng.ERR) = some 0x0#4 ∧ u.nextEvent.1 ≠ .reset) :=
  ⟨⟨inv_idle, by decide⟩, ⟨inv_nullBuffer, by decide⟩⟩

theorem witness_OutcomeStaysUntilTheNextAccept :
    let s := pending (completed 0x0#4 0x0C#8) [.access 0x3400000055#38]
    (∃ t, step s = .next t) ∧ s.nextEvent.1 ≠ .reset ∧ s.engines[0]? = some s.eng ∧ s.eng.BUSY = false ∧
    s.eng.DONE = true := ⟨⟨_, rfl⟩, by decide, rfl, rfl, rfl⟩

/-- V5.3, and V5.4's reset. -/
theorem witness_UnadmittedReadIsStuckUntilReset :
    ((∃ t, step stuck = .next t) ∧ stuck.engines[0]? = some stuck.eng ∧ StuckIn stuck stuck.eng ∧
      stuck.nextEvent.1 ≠ .reset ∧ stuck.eng.Inv) ∧
    ((∃ t, step { stuck with resetPin := true } = .next t) ∧ { stuck with resetPin := true }.nextEvent.1 = .reset) :=
  ⟨⟨⟨_, rfl⟩, rfl, by unfold StuckIn; decide, by decide, inv_stuck⟩, ⟨_, rfl⟩, by decide⟩

/-- Reset together with a host access, and as the next move. -/
theorem witness_ResetTakesPrecedenceAndClearsEveryInstance :
    { pending p1Late.eng [.access 0x2000000101#38] with resetPin := true }.resetPin = true ∧
    (pending p1Late.eng [.reset]).inputs = .reset :: [] := by decide

end Sys2Proof.Tests
end

section
/-! PROOFS. The engine state's family (spec 10_state): which changes keep the invariants of R38, how an instance's phase
moves, and the state after reset. Each statement about steps follows from what one `EngineChange` can do, since
`step_next` says that a step makes at most one of them, or resets every instance. -/

namespace Sys2Proof.Machine

/-! ### The phase of one instance (10_state R20) -/

/-- An instance that is not BUSY enables neither UPDATE nor FINISH: its sequencer has no step (41 R100). -/
theorem State.sequencer_of_not_busy {s : State} (h : s.eng.BUSY = false) : s.sequencer = none := by
  simp [State.sequencer, Engine.updateEnabled, Engine.finishEnabled, h]

/-- Where the sequencer has no step, the engine waits (assumption log 2). -/
theorem runEngine_of_sequencer_none {s : State} (h : s.sequencer = none) : runEngine s = .next s := by
  simp [runEngine, h]

/-- Outside BUSY a COMPUTE is an accept (40 R92). -/
theorem Engine.compute_of_not_busy {e : Engine} (h : e.BUSY = false) (bufv : Bool) :
    e.compute bufv = e.accept bufv := by
  simp [Engine.compute, h]

/-- An accept ends in DONE or in BUSY, never in both and never in IDLE (40 R93). -/
theorem Engine.accept_phase (e : Engine) (bufv : Bool) :
    ((e.accept bufv).BUSY = false ∧ (e.accept bufv).DONE = true) ∨
      ((e.accept bufv).BUSY = true ∧ (e.accept bufv).DONE = false) := by
  cases h : validate bufv e.BASE e.SIZE e.LEN with
  | err c => rw [Engine.accept_of_err h]; exact .inl ⟨rfl, rfl⟩
  | ok n =>
    rcases Nat.eq_zero_or_pos n with rfl | hn
    · rw [Engine.accept_of_zero h]; exact .inl ⟨rfl, rfl⟩
    · rw [Engine.accept_of_pos hn h]; exact .inr ⟨rfl, rfl⟩

/-- An accept clears R, I, RESULT, ERR and DONE before it judges the parameters, so it cannot depend on them
(10_state R18). -/
theorem Engine.accept_forgets (e : Engine) (bufv : Bool) (r res : Byte) (i : Word32) (d : Bool) (err : BitVec 4) :
    Engine.accept bufv { e with R := r, I := i, RESULT := res, ERR := err, DONE := d } = e.accept bufv := rfl

/-- Every change but an accept and FINISH leaves the phase as it is, and FINISH runs only with every byte folded
(10_state R20). -/
theorem EngineChange.phase_cases {T : Table} {ad : List Config.AdmitRange} {e f : Engine}
    (h : EngineChange T ad e f) :
    (f.BUSY = e.BUSY ∧ f.DONE = e.DONE) ∨
    (e.BUSY = false ∧ ∃ bufv, f = e.accept bufv) ∨
    (e.BUSY = true ∧ uint32 e.I = sint32 e.LEN ∧ f = e.completeOk e.R) := by
  cases h with
  | same | setBase | setSize | setLen | clear | fold => exact .inl ⟨rfl, rfl⟩
  | accept bufv hb => exact .inr (.inl ⟨hb, bufv, rfl⟩)
  | complete hf =>
    obtain ⟨hb, hI⟩ := (Engine.finishEnabled_iff e).1 hf
    exact .inr (.inr ⟨hb, hI, rfl⟩)

/-! ### The invariants of one instance (10_state R38) -/

/-- An instance right after reset meets the invariants (70 R132). -/
theorem Engine.inv_resetAt (window : BitVec 27) : (Engine.resetAt window).Inv where
  busy := nofun
  error := nofun
  idle _ _ := ⟨rfl, rfl, rfl, rfl⟩
  codes := .inl rfl

/-- In DONE the invariants ask only that the code is one of the three, and that an error leaves RESULT 0. -/
theorem Engine.Inv.of_done {e : Engine} (hb : e.BUSY = false) (hd : e.DONE = true)
    (hr : e.ERR ≠ 0x0#4 → e.RESULT = 0x00#8) (hc : e.ERR = 0x0#4 ∨ e.ERR = 0x1#4 ∨ e.ERR = 0x2#4) : e.Inv where
  busy h := by simp [hb] at h
  error _ := hr
  idle _ h := by simp [hd] at h
  codes := hc

/-- Outside BUSY the invariants say nothing of the parameters or of a remainder and index that are 0, so a change of
these alone keeps them. -/
theorem Engine.Inv.of_not_busy {e f : Engine} (h : e.Inv) (hb : e.BUSY = false) (hB : f.BUSY = e.BUSY)
    (hD : f.DONE = e.DONE) (hE : f.ERR = e.ERR) (hRes : f.RESULT = e.RESULT)
    (hRI : (f.R = e.R ∧ f.I = e.I) ∨ (f.R = 0x00#8 ∧ f.I = 0#32)) : f.Inv where
  busy hf := by simp [hB, hb] at hf
  error := by simpa only [hD, hE, hRes] using h.error
  idle _ hd := by
    obtain ⟨hR, hI, hE0, hRes0⟩ := h.idle hb (hD ▸ hd)
    rcases hRI with ⟨hR', hI'⟩ | ⟨hR', hI'⟩
    · exact ⟨hR'.trans hR, hI'.trans hI, hE.trans hE0, hRes.trans hRes0⟩
    · exact ⟨hR', hI', hE.trans hE0, hRes.trans hRes0⟩
  codes := by simpa only [hE] using h.codes

/-- An accept establishes the invariants from any state: validation admits exactly the parameters that R38 item 1
asks for while BUSY. -/
theorem Engine.inv_accept (e : Engine) (bufv : Bool) : (e.accept bufv).Inv := by
  cases h : validate bufv e.BASE e.SIZE e.LEN with
  | err c =>
    rw [Engine.accept_of_err h]
    exact .of_done rfl rfl (fun _ => rfl) (by cases c <;> simp [ErrCode.code])
  | ok n =>
    rcases Nat.eq_zero_or_pos n with rfl | hn
    · rw [Engine.accept_of_zero h]
      exact .of_done rfl rfl (fun _ => rfl) (.inl rfl)
    · rw [Engine.accept_of_pos hn h]
      obtain ⟨hlen, ⟨hn0, -⟩ | ⟨-, hsize, htop⟩⟩ := (validate_eq_ok ..).1 h
      · omega
      · have hpos : 1 ≤ sint32 e.LEN := by omega
        exact {
          busy := fun _ => ⟨rfl, rfl, rfl, by simp [uint32, hlen], hpos, hlen ▸ hsize, hlen ▸ htop⟩
          error := nofun
          idle := nofun
          codes := .inl rfl }

/-- An UPDATE keeps the invariants: the index is below LEN, which is below 2^31, so it rises by 1 without a wrap and
stays at most LEN (41 R102). -/
theorem Engine.Inv.fold {e : Engine} (h : e.Inv) (hu : e.updateEnabled = true) (T : Table) (b : Byte) :
    (e.fold T b).Inv := by
  obtain ⟨hb, hlt⟩ := (Engine.updateEnabled_iff e).1 hu
  obtain ⟨hD, hE, hRes, -, hbounds⟩ := h.busy hb
  have hI : (uint32 (e.I + 1#32) : Int) ≤ sint32 e.LEN := by
    simp only [uint32, sint32] at hlt ⊢
    bv_omega
  exact {
    busy := fun _ => ⟨hD, hE, hRes, hI, hbounds⟩
    error := h.error
    idle := fun hb' => by simp [hb] at hb'
    codes := h.codes }

/-- Every change a move can make to an instance keeps the invariants of R38 on it. -/
theorem EngineChange.inv {T : Table} {ad : List Config.AdmitRange} {e f : Engine} (h : EngineChange T ad e f)
    (he : e.Inv) : f.Inv := by
  cases h with
  | same => exact he
  | setBase v hb | setSize v hb | setLen v hb => exact he.of_not_busy hb rfl rfl rfl rfl (.inl ⟨rfl, rfl⟩)
  | accept bufv hb => exact e.inv_accept bufv
  | clear hb => exact he.of_not_busy hb rfl rfl rfl rfl (.inr ⟨rfl, rfl⟩)
  | fold b hu ha hm => exact he.fold hu T b
  | complete hf => exact .of_done rfl rfl (fun hE => absurd rfl hE) (.inl rfl)

/-! ### What a step does to the instances -/

/-- Whatever a step does but reset, the instance at each place undergoes one of the changes of `EngineChange`. -/
theorem step_engine_change {s t : State} {k : Nat} {e : Engine} (h : step s = .next t)
    (hr : s.nextEvent.1 ≠ .reset) (hk : s.engines[k]? = some e) :
    ∃ e', t.engines[k]? = some e' ∧ EngineChange s.rom s.admission e e' := by
  obtain ⟨-, -, ⟨hre, -⟩ | ⟨a, v, -, heng, -⟩ | ⟨-, -, pre, old, post, new, hs, ht, hc⟩⟩ := step_next h
  · exact absurd hre hr
  · exact ⟨e, heng ▸ hk, .same⟩
  · rw [hs] at hk
    rw [ht]
    rcases lt_trichotomy k pre.length with hlt | rfl | hgt
    · rw [List.getElem?_append_left hlt] at hk ⊢
      exact ⟨e, hk, .same⟩
    · obtain rfl : old = e := by simpa using hk
      exact ⟨new, by simp, hc⟩
    · obtain ⟨j, hj⟩ := Nat.exists_eq_add_of_lt hgt
      rw [List.getElem?_append_right hgt.le, show k - pre.length = j + 1 by omega, List.getElem?_cons_succ] at hk ⊢
      exact ⟨e, hk, .same⟩

/-- A step keeps every property of an instance that each of its changes and its reset keep. -/
theorem step_keeps_on_engines {P : Engine → Prop} {s t : State} (h : step s = .next t)
    (hchange : ∀ e f, EngineChange s.rom s.admission e f → P e → P f) (hreset : ∀ e, P e → P e.applyReset)
    (hs : ∀ e ∈ s.engines, P e) : ∀ e ∈ t.engines, P e := by
  obtain ⟨-, -, ⟨-, heng, -⟩ | ⟨a, v, -, heng, -⟩ | ⟨-, -, pre, old, post, new, hpre, ht, hc⟩⟩ := step_next h
  · rw [heng, List.forall_mem_map]
    exact fun e he => hreset e (hs e he)
  · rwa [heng]
  · rw [hpre, List.forall_mem_append, List.forall_mem_cons] at hs
    rw [ht, List.forall_mem_append, List.forall_mem_cons]
    exact ⟨hs.1, hchange old new hc hs.2.1, hs.2.2⟩

/-- A step keeps the canonical form of memory. -/
theorem step_keeps_memory_wf {s t : State} (h : step s = .next t) (hs : s.mem.wf = true) : t.mem.wf = true := by
  obtain ⟨-, -, ⟨-, -, hmem⟩ | ⟨a, v, -, -, hmem⟩ | ⟨-, hmem, -⟩⟩ := step_next h
  · rwa [hmem]
  · rw [hmem]
    exact Memory.wf_set s.mem a v hs
  · rwa [hmem]

/-- No step moves a window (10_state R28). -/
theorem step_keeps_windows {s t : State} (h : step s = .next t) :
    t.engines.map Engine.window = s.engines.map Engine.window := by
  obtain ⟨-, -, ⟨-, heng, -⟩ | ⟨a, v, -, heng, -⟩ | ⟨-, -, pre, old, post, new, hs, ht, hc⟩⟩ := step_next h
  · rw [heng, List.map_map]
    rfl
  · rw [heng]
  · simp [hs, ht, hc.window_eq]

/-! ### The statements -/

/-- Settles O43: at most one instance changes, by an `EngineChange`, or all are reset. -/
theorem everyStepKeepsTheInvariants : Obligations.EveryStepKeepsTheInvariants := by
  intro s t hs h
  exact {
    engines := step_keeps_on_engines h (fun _ _ hc he => hc.inv he) (fun e _ => Engine.inv_resetAt e.window) hs.engines
    memory := step_keeps_memory_wf h hs.memory }

/-- Settles O45: a change of an instance and a reset both keep its window, and neither touches the ROM or
the admission. -/
theorem romAndPlatformNeverChange : Obligations.RomAndPlatformNeverChange := by
  intro s t h
  obtain ⟨hrom, hadm, -⟩ := step_next h
  exact ⟨hrom, hadm, step_keeps_windows h⟩

/-- Settles O51, by the three ways in which a change can move the phase. -/
theorem phaseMovesOnlyAsTheRulesSay : Obligations.PhaseMovesOnlyAsTheRulesSay := by
  intro s t k e h hr hk
  obtain ⟨f, hf, hc⟩ := step_engine_change h hr hk
  refine ⟨f, hf, ?_⟩
  rcases hc.phase_cases with ⟨hB, hD⟩ | ⟨hb, bufv, rfl⟩ | ⟨hb, hI, rfl⟩
  · rw [hB, hD]
    exact ⟨.inl, .inl, .inl⟩
  · refine ⟨fun _ => .inr ⟨bufv, rfl⟩, fun hb' => by simp [hb] at hb', fun _ => ?_⟩
    rcases e.accept_phase bufv with hdone | ⟨hB, hD⟩
    · exact .inl hdone
    · exact .inr ⟨hB, hD, bufv, rfl⟩
  · exact ⟨fun hidle => by simp [hb] at hidle, fun _ => .inr ⟨rfl, rfl, rfl, hI⟩, fun hdone => by simp [hb] at hdone⟩

/-- Settles O14, by the phase and, in DONE, by the error code. -/
theorem statusHasFiveLegalValues : Obligations.StatusHasFiveLegalValues := by
  intro s hs
  refine ⟨s.eng.statusWord, rfl, ?_⟩
  cases hb : s.eng.BUSY with
  | true =>
    obtain ⟨hd, hE, -⟩ := hs.busy hb
    exact .inr (.inl ⟨by simp [Engine.statusWord, zext32, hb, hd, hE], rfl, hd⟩)
  | false =>
    cases hd : s.eng.DONE with
    | false =>
      obtain ⟨-, -, hE, -⟩ := hs.idle hb hd
      exact .inl ⟨by simp [Engine.statusWord, zext32, hb, hd, hE], rfl, rfl⟩
    | true =>
      refine .inr (.inr ⟨rfl, rfl, ?_⟩)
      rcases hs.codes with hE | hE | hE <;> simp [Engine.statusWord, zext32, hb, hd, hE]

/-- Settles O40: outside BUSY a COMPUTE is an accept, whatever the five fields hold. -/
theorem acceptForgetsThePast : Obligations.AcceptForgetsThePast := by
  intro s bufv r res i d err hb
  simp only [exec, execCompute]
  rw [Engine.compute_of_not_busy hb, Engine.compute_of_not_busy (by exact hb), Engine.accept_forgets]
  rfl

/-- Settles O44: the one instance is right after reset, and memory lists nothing. -/
theorem resetStateMeetsTheInvariants : Obligations.ResetStateMeetsTheInvariants where
  engines := List.forall_mem_singleton.2 (Engine.inv_resetAt _)
  memory := Memory.wf_nil

/-- Settles O56: nothing is scheduled, so the step is the engine's, and in IDLE the engine waits. -/
theorem resetStateWaitsInIdle : Obligations.ResetStateWaitsInIdle := by
  have hwait : step State.reset = .next State.reset :=
    (step_of_no_inputs rfl rfl).trans (runEngine_of_sequencer_none (State.sequencer_of_not_busy rfl))
  refine ⟨fun r => ?_, rfl, rfl, rfl, rfl, rfl, rfl, hwait⟩
  cases r <;> rfl

end Sys2Proof.Machine
end

section
/-! PROOFS. The memory family (spec 20_memory): the order in which a transaction reads its buffer, who writes host
memory, what a host read returns after a host write, the byte order of the register window, and what an instruction
leaves alone. -/

namespace Sys2Proof.Machine

/-! ### A transaction with bytes still to read (41 R100, R102, R109) -/

/-- The addressed instance is BUSY with `m` bytes still to read, from its next read address on: they lie inside the
address space, and the platform admits each of them. -/
structure State.HasBytesToRead (s : State) (m : Nat) : Prop where
  busy : s.eng.BUSY = true
  length : sint32 s.eng.LEN = uint32 s.eng.I + m
  inSpace : s.eng.readAddress + m ≤ Config.addrSpace
  admitted : BufferAdmitted s s.eng.readAddress m

/-- The accept of a transaction over `n ≥ 1` bytes, at the addresses of its buffer and all admitted, leaves all `n` to
read, from BASE on. -/
theorem State.hasBytesToRead_of_compute {s s1 : State} {n : Nat} (hidle : s.eng.BUSY = false)
    (hlen : s.eng.LEN.toInt = n) (hpos : 0 < n) (hsize : n ≤ s.eng.SIZE.toNat)
    (htop : s.eng.BASE.toNat + n ≤ 2 ^ 32) (hadm : BufferAdmitted s s.eng.BASE.toNat n)
    (h : exec (.compute true) s = .next s1) :
    s1.HasBytesToRead n ∧ s1.eng.readAddress = s.eng.BASE.toNat := by
  have hok : validate true s.eng.BASE s.eng.SIZE s.eng.LEN = .ok n :=
    (validate_eq_ok ..).2 ⟨hlen, .inr ⟨rfl, by exact_mod_cast hsize, by exact_mod_cast htop⟩⟩
  obtain rfl : s.setEng (s.eng.compute true) = s1 := by injection h
  rw [Engine.compute_of_not_busy hidle, Engine.accept_of_pos hpos hok]
  exact ⟨⟨rfl, hlen.trans (by simp [uint32]), htop, hadm⟩, rfl⟩

/-- With a byte still to read the sequencer's step is UPDATE, with the byte at the next read address. -/
theorem State.HasBytesToRead.sequencer_eq {s : State} {m : Nat} (h : s.HasBytesToRead (m + 1)) :
    s.sequencer = some (.update (s.mem.byte s.eng.readAddress)) := by
  obtain ⟨hbusy, hlen, hspace, hadm⟩ := h
  have hread : s.memRead s.eng.readAddress = some (s.mem.byte s.eng.readAddress) :=
    (s.memRead_eq_some _ _).2 ⟨by omega, hadm 0 m.succ_pos, rfl⟩
  exact (s.sequencer_eq_update _).2 ⟨(Engine.updateEnabled_iff _).2 ⟨hbusy, by omega⟩, hread⟩

/-- With a byte still to read the engine's step folds it. -/
theorem State.HasBytesToRead.runEngine_eq {s : State} {m : Nat} (h : s.HasBytesToRead (m + 1)) :
    runEngine s = .next (s.setEng (s.eng.fold s.rom (s.mem.byte s.eng.readAddress))) := by
  obtain ⟨hu, hread⟩ := (s.sequencer_eq_update _).1 h.sequencer_eq
  obtain ⟨hspace, hadm, -⟩ := (s.memRead_eq_some _ _).1 hread
  simp only [runEngine, h.sequencer_eq]
  exact execUpdate_eq_next.2 ⟨hu, hspace, hadm, rfl⟩

/-- An index below LEN, which is below 2^31, rises by 1 without a wrap (41 R102). -/
theorem Engine.uint32_succ_I {e : Engine} (h : (uint32 e.I : Int) < sint32 e.LEN) :
    uint32 (e.I + 1#32) = uint32 e.I + 1 := by
  have hlt := BitVec.toInt_lt (x := e.LEN)
  simp only [uint32, sint32, BitVec.toNat_add, BitVec.toNat_ofNat] at h ⊢
  omega

/-- Folding the next byte moves the read address on by 1, and leaves one byte fewer to read. -/
theorem State.HasBytesToRead.fold {s : State} {m : Nat} (h : s.HasBytesToRead (m + 1)) (b : Byte) :
    (s.setEng (s.eng.fold s.rom b)).HasBytesToRead m ∧
      (s.setEng (s.eng.fold s.rom b)).eng.readAddress = s.eng.readAddress + 1 := by
  obtain ⟨hbusy, hlen, hspace, hadm⟩ := h
  have hI := Engine.uint32_succ_I (e := s.eng) (by omega)
  have haddr : (s.setEng (s.eng.fold s.rom b)).eng.readAddress = s.eng.readAddress + 1 := by
    simp [Engine.readAddress, hI, Nat.add_assoc]
  refine ⟨⟨hbusy, ?_, ?_, fun k hk => ?_⟩, haddr⟩
  · simp only [State.setEng_eng, Engine.fold_LEN, Engine.fold_I, hI]
    omega
  · omega
  · rw [haddr, Nat.add_assoc, Nat.add_comm 1 k]
    exact hadm (k + 1) (by omega)

/-- With no byte left to read the sequencer's step is FINISH. -/
theorem State.HasBytesToRead.sequencer_zero {s : State} (h : s.HasBytesToRead 0) : s.sequencer = some .finish :=
  s.sequencer_eq_finish.2 ((Engine.finishEnabled_iff _).2 ⟨h.busy, by simpa using h.length.symm⟩)

/-- With no byte left to read the engine's step publishes the remainder. -/
theorem State.HasBytesToRead.runEngine_zero {s : State} (h : s.HasBytesToRead 0) :
    runEngine s = .next (s.setEng (s.eng.completeOk s.eng.R)) := by
  simp only [runEngine, h.sequencer_zero]
  exact execFinish_eq_next.2 ⟨s.sequencer_eq_finish.1 h.sequencer_zero, rfl⟩

/-! ### The addresses a transaction reads (20 R42) -/

/-- A completing step of the engine reads at most one address, and the further steps read after it. -/
theorem readTrace_succ {s t : State} (h : runEngine s = .next t) (k : Nat) :
    readTrace (k + 1) s = s.readOfStep.toList ++ readTrace k t := by
  simp only [readTrace, h]

/-- Outside BUSY the engine reads nothing, however many steps it is given. -/
theorem readTrace_of_not_busy {s : State} (h : s.eng.BUSY = false) (k : Nat) : readTrace k s = [] := by
  have hseq := State.sequencer_of_not_busy h
  induction k with
  | zero => rfl
  | succ k ih =>
    rw [readTrace_succ (runEngine_of_sequencer_none hseq), ih]
    simp [State.readOfStep, hseq]

/-- With `m` bytes still to read, any number of steps that is enough for them and FINISH reads `m` consecutive
addresses. -/
theorem State.HasBytesToRead.readTrace_eq {s : State} {m : Nat} (h : s.HasBytesToRead m) (k : Nat) :
    readTrace (m + 1 + k) s = List.range' s.eng.readAddress m := by
  induction m generalizing s with
  | zero =>
    rw [Nat.zero_add, Nat.add_comm, readTrace_succ h.runEngine_zero, readTrace_of_not_busy rfl]
    simp [State.readOfStep, h.sequencer_zero]
  | succ m ih =>
    obtain ⟨hrest, haddr⟩ := h.fold (s.mem.byte s.eng.readAddress)
    rw [Nat.add_right_comm (m + 1), readTrace_succ h.runEngine_eq, ih hrest, haddr, List.range'_succ]
    simp [State.readOfStep, h.sequencer_eq]

/-! ### The register window (20 R46) -/

/-- The byte at a register's offset plus `j` lies in the register's slot, at place `j`. -/
theorem Reg.offset_add_byte (r : Reg) {j : Nat} (hj : j < 4) :
    regAt (r.offset + BitVec.ofNat 5 j) = r ∧ (r.offset + BitVec.ofNat 5 j).toNat % 4 = j := by
  revert j
  cases r <;> decide

/-! ### Runs -/

/-- A run begins with a step, where that step completes. -/
theorem run_succ_of_step {s t : State} (h : step s = .next t) (k : Nat) :
    Host.Core.run core (k + 1) s = Host.Core.run core k t := by
  simp only [Host.Core.run, show core.step s = .next t from h]

/-! ### What an instruction returns to the host (20 R52) -/

/-- The instruction is a register read. -/
def isRegisterRead : Instr → Bool
  | .rdCtrl | .rdStatus | .rdBase | .rdSize | .rdLen | .rdResult | .rdRsv _ => true
  | _ => false

/-- Only a register read changes what the host was last returned. -/
theorem exec_readData {i : Instr} {s t : State} (hi : isRegisterRead i = false) (h : exec i s = .next t) :
    t.readData = s.readData := by
  cases i with
  | rdCtrl | rdStatus | rdBase | rdSize | rdLen | rdResult | rdRsv => simp [isRegisterRead] at hi
  | wrStatus | wrBase | wrSize | wrLen | wrResult | wrRsv | nop | compute | init => cases h; rfl
  | wrCtrl c =>
    simp only [exec, execWrCtrl] at h
    split at h <;> cases h <;> rfl
  | update b =>
    obtain ⟨-, -, -, rfl⟩ := execUpdate_eq_next.1 h
    rfl
  | finish =>
    obtain ⟨-, rfl⟩ := execFinish_eq_next.1 h
    rfl

/-! ### The statements -/

/-- Settles O36, by induction on the bytes still to read. -/
theorem transactionReadsItsBufferOnceInOrder : Obligations.TransactionReadsItsBufferOnceInOrder := by
  intro s s1 n k hidle hlen hpos hsize htop hadm h
  obtain ⟨hbytes, haddr⟩ := State.hasBytesToRead_of_compute hidle hlen hpos hsize htop hadm h
  rw [hbytes.readTrace_eq k, haddr, List.range'_eq_map_range]

/-- Settles O46: of the three things a step can do, only the host's write touches memory. -/
theorem onlyTheHostWritesMemory : Obligations.OnlyTheHostWritesMemory := by
  intro s t h
  obtain ⟨-, -, ⟨-, -, hmem⟩ | ⟨a, v, hev, -, hmem⟩ | ⟨-, hmem, -⟩⟩ := step_next h
  · exact .inr fun b => by rw [hmem]
  · refine .inl ⟨a, v, hev, ?_, fun b hb => ?_⟩
    · rw [hmem, Memory.byte_set_same]
    · rw [hmem, Memory.byte_set_other _ _ hb.symm]
  · exact .inr fun b => by rw [hmem]

/-- Settles O16: the window's byte is a field of the register that `regAt` names. -/
theorem windowBytesAreLittleEndian : Obligations.WindowBytesAreLittleEndian := by
  intro e r j hj
  obtain ⟨hreg, hplace⟩ := r.offset_add_byte hj
  rw [Engine.windowByte, hreg, hplace, BitVec.extractLsb'_toNat, Nat.shiftRight_eq_div_pow]

/-- Settles O47: the two steps are the two host moves, and the second reads the memory the first left. -/
theorem hostMemoryReadsSeeTheLastWrite : Obligations.HostMemoryReadsSeeTheLastWrite := by
  intro s a b v rest hpin hin
  have hwrite : step s = .next (State.hostWrite a v { s with inputs := .memRead b :: rest }) :=
    step_of_inputs hpin hin
  have hread : step (State.hostWrite a v { s with inputs := .memRead b :: rest }) =
      .next (State.returnToHost (zext32 ((s.mem.set a.toNat v).byte b.toNat))
        { State.hostWrite a v s with inputs := rest }) :=
    step_of_inputs (ev := .memRead b) (rest := rest) hpin rfl
  refine ⟨_, (run_succ_of_step hwrite 1).trans (run_succ_of_step hread 0), rfl, rfl, ?_⟩
  rw [State.returnToHost_readData, zext32]
  by_cases hab : b = a
  · rw [if_pos hab, hab, Memory.byte_set_same]
  · have hne : a.toNat ≠ b.toNat := fun heq => hab (BitVec.eq_of_toNat_eq heq.symm)
    rw [if_neg hab, Memory.byte_set_other _ _ hne]

/-- Settles O48: the frame of `exec`, and that only a read returns a value. -/
theorem instructionsChangeOnlyTheirInstance : Obligations.InstructionsChangeOnlyTheirInstance := by
  intro i s t h
  obtain ⟨hframe, hwin⟩ := exec_frame h
  have hread := fun hi => exec_readData (i := i) hi h
  rw [hframe]
  refine ⟨fun _ => rfl, rfl, rfl, rfl, rfl, rfl, rfl, hwin, fun hrsv _ _ _ _ _ _ => hread ?_⟩
  cases i with
  | rdCtrl | rdStatus | rdBase | rdSize | rdLen | rdResult => contradiction
  | rdRsv off => exact absurd rfl (hrsv off)
  | _ => rfl

end Sys2Proof.Machine
end

section
/-! PROOFS. The encoding family (spec 30_encoding): the decoder undoes the encoder, a word decodes exactly by the rows of
the opcode map, which bits of a word nothing sees, the assembler forms, and that a step runs what its move spells. -/

namespace Sys2Proof

/-! ### Decoding a word built from fields (R63 to R65, R68 to R70) -/

theorem decode_readWord (off : BitVec 5) : decode (.busAccess (readWord off)) = decodeRead off :=
  decodeBus_busWord false off 0#32

theorem decode_writeWord (off : BitVec 5) (v : Word32) :
    decode (.busAccess (writeWord off v)) = decodeWrite off v :=
  decodeBus_busWord true off v

theorem decodeCommand_commandWord_compute (bufv : Bool) :
    decodeCommand (commandWord bufv 0x1#4) = .ok (.compute bufv) := by
  simp [decodeCommand, cmdOp_commandWord, cmdBufv_commandWord]

theorem decodeMicro_microWord_update (b : Byte) : decodeMicro (microWord 0b01#2 b) = .ok (.update b) := by
  simp [decodeMicro, microUop_microWord, microData_microWord]

/-- A U word is the word of its two fields (R65). -/
theorem microWord_fields (w : BitVec 10) : microWord (microUop w) (microData w) = w := by
  apply BitVec.eq_of_toNat_eq
  have hlt := w.isLt
  simp only [toNat_microWord, microUop, microData, BitVec.extractLsb'_toNat, Nat.shiftRight_eq_div_pow]
  omega

/-- A B word as a numeral (R63). -/
theorem busWord_eq_ofNat (w : Bool) (off : BitVec 5) (v : Word32) :
    busWord w off v = BitVec.ofNat 38 (w.toNat * 2 ^ 37 + off.toNat * 2 ^ 32 + v.toNat) := by
  have hw : w.toNat * 2 ^ 37 + off.toNat * 2 ^ 32 + v.toNat = (busWord w off v).toNat := by
    rw [toNat_busWord]
    omega
  rw [hw, BitVec.ofNat_toNat, BitVec.setWidth_eq]

/-- A U word as a numeral (R65). -/
theorem microWord_eq_ofNat (u : BitVec 2) (b : Byte) :
    microWord u b = BitVec.ofNat 10 (u.toNat * 2 ^ 8 + b.toNat) := by
  rw [← toNat_microWord, BitVec.ofNat_toNat, BitVec.setWidth_eq]

/-! ### The instructions the decoder gives -/

theorem decodeRead_wf {off : BitVec 5} {i : Instr} (h : decodeRead off = .ok i) : i.wf = true := by
  unfold decodeRead at h
  split at h <;> cases h
  case h_7 hoff | h_8 hoff => simp [Instr.wf, isReservedOffset, ← BitVec.toNat_inj, hoff]
  all_goals rfl

theorem decodeWrite_wf {off : BitVec 5} {v : Word32} {i : Instr} (h : decodeWrite off v = .ok i) : i.wf = true := by
  unfold decodeWrite at h
  split at h <;> cases h
  case h_7 hoff | h_8 hoff => simp [Instr.wf, isReservedOffset, ← BitVec.toNat_inj, hoff]
  all_goals rfl

/-- What a C word decodes to, by its OP (R69). -/
theorem decodeCommand_eq (c : BitVec 32) :
    decodeCommand c =
      if cmdOp c = 0x0#4 then .ok .nop
      else if cmdOp c = 0x1#4 then .ok (.compute (cmdBufv c))
      else .error .reservedCommand := by
  unfold decodeCommand
  split
  case h_1 h0 => rw [if_pos (BitVec.eq_of_toNat_eq h0)]
  case h_2 h1 => simp [BitVec.eq_of_toNat_eq (y := 0x1#4) h1]
  case h_3 h0 h1 => rw [if_neg fun h => h0 (congrArg _ h), if_neg fun h => h1 (congrArg _ h)]

/-- What a U word decodes to: INIT and FINISH are one word each, UPDATE every word with its UOP (R70). -/
theorem decodeMicro_cases (w : BitVec 10) :
    (w = 0x000#10 ∧ decodeMicro w = .ok .init) ∨
    (microUop w = 0b01#2 ∧ decodeMicro w = .ok (.update (microData w))) ∨
    (w = 0x200#10 ∧ decodeMicro w = .ok .finish) ∨
    (w ≠ 0x000#10 ∧ microUop w ≠ 0b01#2 ∧ w ≠ 0x200#10 ∧ decodeMicro w = .error .reservedMicroOp) := by
  by_cases h0 : w = 0x000#10
  · subst h0; exact .inl ⟨rfl, rfl⟩
  by_cases h2 : w = 0x200#10
  · subst h2; exact .inr (.inr (.inl ⟨rfl, rfl⟩))
  by_cases hu : microUop w = 0b01#2
  · exact .inr (.inl ⟨hu, by simp [decodeMicro, hu]⟩)
  refine .inr (.inr (.inr ⟨h0, hu, h2, ?_⟩))
  unfold decodeMicro
  split
  case h_1 hinit =>
    refine if_neg fun hd => h0 ?_
    rw [← microWord_fields w, hd, BitVec.eq_of_toNat_eq (y := 0b00#2) hinit]
    rfl
  case h_2 hupdate => exact absurd (BitVec.eq_of_toNat_eq hupdate) hu
  case h_3 hfinish =>
    refine if_neg fun hd => h2 ?_
    rw [← microWord_fields w, hd, BitVec.eq_of_toNat_eq (y := 0b10#2) hfinish]
    rfl
  case h_4 => rfl

theorem decode_wf {w : EncWord} {i : Instr} (h : decode w = .ok i) : i.wf = true := by
  cases w with
  | busAccess w =>
    simp only [decode, decodeBus] at h
    split at h
    · exact decodeWrite_wf h
    · exact decodeRead_wf h
  | command c =>
    rw [decode, decodeCommand_eq] at h
    split_ifs at h <;> cases h <;> rfl
  | microOp w =>
    rcases decodeMicro_cases w with ⟨-, hw⟩ | ⟨-, hw⟩ | ⟨-, hw⟩ | ⟨-, -, -, hw⟩ <;> cases hw.symm.trans h <;> rfl

/-- A well-formed instruction's word decodes to it (R68 to R70). -/
theorem decode_encode {i : Instr} (h : i.wf = true) : decode (encode i) = .ok i := by
  cases i with
  | rdCtrl | rdStatus | rdBase | rdSize | rdLen | rdResult => exact decode_readWord _
  | wrCtrl | wrStatus | wrBase | wrSize | wrLen | wrResult => exact decode_writeWord _ _
  | rdRsv off =>
    refine (decode_readWord off).trans ?_
    rcases Laws.reservedOffset_cases h with rfl | rfl <;> rfl
  | wrRsv off v =>
    refine (decode_writeWord off v).trans ?_
    rcases Laws.reservedOffset_cases h with rfl | rfl <;> rfl
  | compute bufv => exact decodeCommand_commandWord_compute bufv
  | update b => exact decodeMicro_microWord_update b
  | nop | init | finish => rfl

/-! ### The rows of the opcode map (R68 to R70) -/

/-- The mnemonic of the instruction a word decodes to, if it decodes. -/
def EncWord.decodedMnemonic (w : EncWord) : Option String := (decode w).toOption.map Instr.mnemonic

/-- The mnemonics of the rows that match a word. -/
def EncWord.rowMnemonics (w : EncWord) : List String := (opcodeRows.filter (·.matchesWord w)).map (·.mnemonic)

theorem EncWord.decodedMnemonic_eq_some (w : EncWord) (m : String) :
    w.decodedMnemonic = some m ↔ ∃ i, decode w = .ok i ∧ i.mnemonic = m := by
  unfold EncWord.decodedMnemonic
  cases decode w <;> simp [Except.toOption]

theorem EncWord.mem_rowMnemonics (w : EncWord) (m : String) :
    m ∈ w.rowMnemonics ↔ ∃ r ∈ opcodeRows, r.mnemonic = m ∧ r.matchesWord w = true := by
  simp [EncWord.rowMnemonics, and_assoc, and_comm (a := OpRow.matchesWord _ _ = true)]

/-- The same rows match two words of one format that agree under the mask of every row of the format. -/
theorem EncWord.rowMnemonics_congr {w w' : EncWord} (hw : w.width = w'.width)
    (h : ∀ r ∈ opcodeRows, r.width = w'.width → w.value &&& r.mask = w'.value &&& r.mask) :
    w.rowMnemonics = w'.rowMnemonics := by
  refine congrArg (List.map OpRow.mnemonic) (List.filter_congr fun r hr => ?_)
  by_cases hf : r.width = w'.width
  · simp only [OpRow.matchesWord, hw, h r hr hf]
  · simp only [OpRow.matchesWord, hw, beq_false_of_ne hf, Bool.false_and]

/-- No row of format B looks at DATA (R68). -/
theorem rowMnemonics_busWord (w : Bool) (off : BitVec 5) (v : Word32) :
    (EncWord.busAccess (busWord w off v)).rowMnemonics = (EncWord.busAccess (busWord w off 0#32)).rowMnemonics := by
  have hmask : ∀ r ∈ opcodeRows, r.width = 38 → r.mask = r.mask / 2 ^ 32 * 2 ^ 32 := by decide
  refine EncWord.rowMnemonics_congr rfl fun r hr hf => ?_
  simp only [EncWord.value, toNat_busWord]
  rw [hmask r hr hf, and_high_mask 32 _ _ _ v.isLt, and_high_mask 32 _ _ _ (0#32).isLt]

/-- Nor does the decoder, to choose the instruction (R68). -/
theorem decodedMnemonic_busWord (w : Bool) (off : BitVec 5) (v : Word32) :
    (EncWord.busAccess (busWord w off v)).decodedMnemonic =
      (EncWord.busAccess (busWord w off 0#32)).decodedMnemonic := by
  simp only [EncWord.decodedMnemonic, decode, decodeBus_busWord, decodeWrite]
  cases w
  · rfl
  · simp only [if_true]
    split <;> rfl

/-- The rows of format C look at OP only (R69). -/
theorem and_opMask (c : BitVec 32) : c.toNat &&& 0xF = (cmdOp c).toNat := by
  rw [cmdOp, BitVec.extractLsb'_toNat]
  exact Nat.and_two_pow_sub_one_eq_mod c.toNat 4

theorem rowMnemonics_command (c : BitVec 32) :
    (EncWord.command c).rowMnemonics = (EncWord.command (commandWord false (cmdOp c))).rowMnemonics := by
  have hmask : ∀ r ∈ opcodeRows, r.width = 32 → r.mask = 0xF := by decide
  refine EncWord.rowMnemonics_congr rfl fun r hr hf => ?_
  rw [hmask r hr hf]
  exact (and_opMask c).trans (commandWord_masked ..).symm

theorem decodedMnemonic_command (c : BitVec 32) :
    (EncWord.command c).decodedMnemonic = (EncWord.command (commandWord false (cmdOp c))).decodedMnemonic := by
  simp only [EncWord.decodedMnemonic, decode, decodeCommand, cmdOp_commandWord]
  split <;> rfl

/-- The mask of INIT's and FINISH's rows looks at the whole word (R70). -/
theorem wholeRow_matchesWord (name : String) (p : Nat) (w : BitVec 10) :
    (OpRow.mk name 10 0x3FF p).matchesWord (.microOp w) = (w.toNat == p) := by
  have hmod : w.toNat &&& 0x3FF = w.toNat :=
    (Nat.and_two_pow_sub_one_eq_mod w.toNat 10).trans (Nat.mod_eq_of_lt w.isLt)
  simp only [OpRow.matchesWord, EncWord.width, EncWord.value, hmod, beq_self_eq_true, Bool.true_and]

/-- UPDATE's row looks at UOP only (R70). -/
theorem updateRow_matchesWord (name : String) (w : BitVec 10) :
    (OpRow.mk name 10 0x300 0x100).matchesWord (.microOp w) = (microUop w == 0b01#2) := by
  have hu : ∀ u : BitVec 2, ((u.toNat &&& 0x3) * 2 ^ 8 == 0x100) = (u == 0b01#2) := by decide
  rw [← hu, ← microWord_masked _ (microData w), microWord_fields]
  rfl

/-- The rows that match a U word (R70). -/
theorem rowMnemonics_microOp (w : BitVec 10) :
    (EncWord.microOp w).rowMnemonics =
      (if w = 0x000#10 then ["INIT"] else []) ++ (if microUop w = 0b01#2 then ["UPDATE"] else []) ++
      (if w = 0x200#10 then ["FINISH"] else []) := by
  have hformat : opcodeRows.filter (·.width == 10) =
      [⟨"INIT", 10, 0x3FF, 0x000⟩, ⟨"UPDATE", 10, 0x300, 0x100⟩, ⟨"FINISH", 10, 0x3FF, 0x200⟩] := by decide
  have hsplit : opcodeRows.filter (·.matchesWord (.microOp w)) =
      (opcodeRows.filter (·.width == 10)).filter (·.matchesWord (.microOp w)) := by
    rw [List.filter_filter]
    refine List.filter_congr fun r _ => ?_
    simp only [OpRow.matchesWord, EncWord.width, Bool.and_comm, Bool.and_self_left]
  simp only [EncWord.rowMnemonics, hsplit, hformat, List.filter_cons, List.filter_nil, wholeRow_matchesWord,
    updateRow_matchesWord, beq_iff_eq, ← BitVec.toNat_inj, BitVec.toNat_ofNat]
  split_ifs <;> rfl

/-- The rows that match a word name the instruction it decodes to: one row where it decodes, none where it is refused. -/
theorem rowMnemonics_eq (w : EncWord) : w.rowMnemonics = w.decodedMnemonic.toList := by
  cases w with
  | busAccess w =>
    have hfields : ∀ (b : Bool) (off : BitVec 5), (EncWord.busAccess (busWord b off 0#32)).rowMnemonics =
        (EncWord.busAccess (busWord b off 0#32)).decodedMnemonic.toList := by decide
    rw [← busWord_fields w, rowMnemonics_busWord, decodedMnemonic_busWord, hfields]
  | command c =>
    have hop : ∀ op : BitVec 4, (EncWord.command (commandWord false op)).rowMnemonics =
        (EncWord.command (commandWord false op)).decodedMnemonic.toList := by decide
    rw [rowMnemonics_command, decodedMnemonic_command, hop]
  | microOp w =>
    rw [rowMnemonics_microOp, EncWord.decodedMnemonic, decode]
    rcases decodeMicro_cases w with ⟨rfl, -⟩ | ⟨hu, hd⟩ | ⟨rfl, -⟩ | ⟨h0, hu, h2, hd⟩
    · rfl
    · have h0 : w ≠ 0x000#10 := by rintro rfl; cases hu
      have h2 : w ≠ 0x200#10 := by rintro rfl; cases hu
      rw [if_neg h0, if_pos hu, if_neg h2, hd]
      rfl
    · rfl
    · rw [if_neg h0, if_neg hu, if_neg h2, hd]
      rfl

/-- Rows that match one word overlap: their patterns are that word's bits, so they agree where both masks look. -/
theorem OpRow.overlaps_of_matchesWord {r q : OpRow} {w : EncWord} (hr : r.matchesWord w = true)
    (hq : q.matchesWord w = true) : r.overlaps q = true := by
  simp only [OpRow.matchesWord, OpRow.overlaps, Bool.and_eq_true, beq_iff_eq] at hr hq ⊢
  obtain ⟨hrw, hrp⟩ := hr
  obtain ⟨hqw, hqp⟩ := hq
  exact ⟨hrw.trans hqw.symm, by rw [← hrp, ← hqp, Nat.and_right_comm]⟩

/-! ### Bits of a command word that nothing sees (R64, R69, R71) -/

theorem cmdOp_xor (c y : BitVec 32) : cmdOp (c ^^^ y) = cmdOp c ^^^ cmdOp y := BitVec.extractLsb'_xor

theorem cmdBufv_xor (c y : BitVec 32) : cmdBufv (c ^^^ y) = (cmdBufv c ^^ cmdBufv y) := BitVec.getLsbD_xor

/-- A change of bits outside OP and BUFV is not seen by the decoder. -/
theorem decodeCommand_xor {c y : BitVec 32} (hop : cmdOp y = 0x0#4) (hbufv : cmdBufv y = false) :
    decodeCommand (c ^^^ y) = decodeCommand c := by
  simp [decodeCommand, cmdOp_xor, cmdBufv_xor, hop, hbufv]

/-- A change of BUFV alone keeps the command, and gives COMPUTE the other BUFV. -/
theorem decodeCommand_xor_bufv (c : BitVec 32) :
    decodeCommand (c ^^^ 0x100#32) =
      if cmdOp c = 0x0#4 then .ok .nop
      else if cmdOp c = 0x1#4 then .ok (.compute !cmdBufv c)
      else .error .reservedCommand := by
  have hop : cmdOp (c ^^^ 0x100#32) = cmdOp c := (cmdOp_xor c _).trans BitVec.xor_zero
  have hbufv : cmdBufv (c ^^^ 0x100#32) = !cmdBufv c := (cmdBufv_xor c _).trans (Bool.xor_true _)
  rw [decodeCommand_eq, hop, hbufv]

end Sys2Proof

namespace Sys2Proof.Machine

/-! ### Moves that spell an instruction (R66; 40 R89; 41 R100) -/

/-- What a write to CTRL does, by the command's OP (40 R89 to R92). -/
theorem execWrCtrl_eq (c : Word32) (s : State) :
    execWrCtrl c s = if cmdOp c = 0x1#4 then .next (s.setEng (s.eng.compute (cmdBufv c))) else .next s := by
  unfold execWrCtrl
  split
  case h_1 h0 => simp [BitVec.eq_of_toNat_eq (y := 0x0#4) h0]
  case h_2 h1 => rw [if_pos (BitVec.eq_of_toNat_eq h1)]
  case h_3 h0 h1 => rw [if_neg fun h => h1 (congrArg _ h)]

/-- A write to CTRL runs the command its DATA spells (40 R89). -/
theorem exec_wrCtrl_of_decode {c : Word32} {i : Instr} (h : decodeCommand c = .ok i) (s : State) :
    exec (.wrCtrl c) s = exec i s := by
  rw [decodeCommand_eq] at h
  simp only [exec, execWrCtrl_eq]
  split_ifs at h with h0 h1 <;> cases h
  · rw [h0]; rfl
  · rw [if_pos h1]; rfl

/-- A write to CTRL with a reserved OP changes nothing (40 R89). -/
theorem exec_wrCtrl_of_reserved {c : Word32} (h : decodeCommand c = .error .reservedCommand) (s : State) :
    exec (.wrCtrl c) s = .next s := by
  rw [decodeCommand_eq] at h
  simp only [exec, execWrCtrl_eq]
  split_ifs at h with h0 h1
  rw [if_neg h1]

theorem runAccess_of_decode {w : BitVec 38} {i : Instr} (h : decodeBus w = .ok i) (s : State) :
    runAccess w s = exec i s := by
  simp [runAccess, h]

theorem runEngine_of_sequencer {s : State} {i : Instr} (h : s.sequencer = some i) : runEngine s = exec i s := by
  simp [runEngine, h]

theorem State.produces_iff (s : State) (i : Instr) :
    s.produces i = true ↔ s.sequencer = some i ∨ (i = .init ∧ s.eng.BUSY = false) := by
  simp [State.produces]

/-- A 32-bit bus access runs its B word at the instance whose window holds the address (30 R63, 20 R53). -/
theorem step_bus {s s' : State} {r : BusRequest} {rest : List Event} (hp : s.resetPin = false)
    (hin : s.inputs = .bus r :: rest) (hbits : r.bits = 32)
    (hf : State.focus (windowOf r.addr) { s with inputs := rest } = some s') :
    step s = runAccess (busWord r.write (offsetOf r.addr) r.data) s' := by
  simp [step_of_inputs hp hin, runEvent, runBus, hf, hbits]

/-! ### Words placed for the next step (assumption logs 3 and 17) -/

theorem withFetchWord_busAccess (s : State) {nbits : Nat} (hn : nbits = 38 ∨ nbits = 40) (w : BitVec 38) :
    s.withFetchWord nbits w.toNat = s.schedule (.access w) := by
  have hw : tableWord nbits w.toNat = some (.busAccess w) := by
    rcases hn with rfl | rfl <;> simp [tableWord, w.isLt]
  rw [State.withFetchWord, hw]
  rfl

theorem withFetchWord_command (s : State) (c : BitVec 32) :
    s.withFetchWord 32 c.toNat = s.schedule (.access (writeWord 0x00#5 c)) := by
  have hc : tableWord 32 c.toNat = some (.command c) := by simp [tableWord, c.isLt]
  rw [State.withFetchWord, hc]
  rfl

theorem withFetchWord_microOp (s : State) {nbits : Nat} (hn : nbits = 10 ∨ nbits = 16) (w : BitVec 10) :
    s.withFetchWord nbits w.toNat = s.placeWord (.microOp w) := by
  have hw : tableWord nbits w.toNat = some (.microOp w) := by
    rcases hn with rfl | rfl <;> simp [tableWord, w.isLt]
  rw [State.withFetchWord, hw]

theorem step_schedule_access {w : BitVec 38} {i : Instr} (h : decodeBus w = .ok i) (s : State) :
    step (s.schedule (.access w)) = exec i { s with resetPin := false } :=
  (step_schedule s _).trans (runAccess_of_decode h _)

/-- A C word runs as the write to CTRL that issues it. -/
theorem step_withFetchWord_command (s : State) (c : BitVec 32) :
    step (s.withFetchWord 32 c.toNat) = exec (.wrCtrl c) { s with resetPin := false } := by
  rw [withFetchWord_command]
  exact step_schedule_access (decode_writeWord 0x00#5 c) s

/-- A U word runs in a state that produces it. -/
theorem step_schedule_micro {w : BitVec 10} {i : Instr} {s : State} (hd : decodeMicro w = .ok i)
    (hp : s.produces i = true) : step (s.schedule (.micro w)) = exec i { s with resetPin := false } :=
  (step_schedule s _).trans (runMicro_of_produces hd hp)

theorem step_withFetchWord_init (s : State) {nbits : Nat} (hn : nbits = 10 ∨ nbits = 16) :
    step (s.withFetchWord nbits 0x000) = exec .init { s.readyForInit with resetPin := false } := by
  rw [show 0x000 = (0x000#10).toNat from rfl, withFetchWord_microOp s hn]
  exact step_schedule_micro rfl ((State.produces_iff _ _).2 (.inr ⟨rfl, rfl⟩))

theorem step_withFetchWord_update (s : State) {nbits : Nat} (hn : nbits = 10 ∨ nbits = 16) (b : Byte) :
    step (s.withFetchWord nbits (0x100 + b.toNat)) = exec (.update b) { s.readyForUpdate b with resetPin := false } := by
  have hd := decodeMicro_microWord_update b
  have hplace : s.placeWord (.microOp (microWord 0b01#2 b)) =
      (s.readyForUpdate b).schedule (.micro (microWord 0b01#2 b)) := by
    simp only [State.placeWord, hd]
  rw [show 0x100 + b.toNat = (microWord 0b01#2 b).toNat from (toNat_microWord 0b01#2 b).symm,
    withFetchWord_microOp s hn, hplace]
  exact step_schedule_micro hd ((State.produces_iff _ _).2 (.inl (s.readyForUpdate_ready b).1))

theorem step_withFetchWord_finish (s : State) {nbits : Nat} (hn : nbits = 10 ∨ nbits = 16) :
    step (s.withFetchWord nbits 0x200) = exec .finish { s.readyForFinish with resetPin := false } := by
  rw [show 0x200 = (0x200#10).toNat from rfl, withFetchWord_microOp s hn]
  exact step_schedule_micro rfl ((State.produces_iff _ _).2 (.inl s.readyForFinish_ready.1))

/-! ### The window a bus address lies in (10_state R28, 20 R53) -/

/-- ENGINE_BASE as a number: a multiple of 0x20. -/
theorem Engine.toNat_engineBase (e : Engine) : e.engineBase.toNat = e.window.toNat * 2 ^ 5 := by
  refine (BitVec.toNat_append e.window 0#5).trans ?_
  rw [BitVec.toNat_ofNat, Nat.shiftLeft_eq, Nat.zero_mod, Nat.or_zero]

/-- `ENGINE_BASE + OFF` as a number: the offset fills the low bits, without a carry or a wrap. -/
theorem Engine.toNat_engineBase_add (e : Engine) (off : BitVec 5) :
    (e.engineBase + off.setWidth 32).toNat = e.window.toNat * 2 ^ 5 + off.toNat := by
  have hw := e.window.isLt
  have ho := off.isLt
  rw [BitVec.toNat_add, e.toNat_engineBase, BitVec.toNat_setWidth]
  omega

theorem windowOf_engineBase_add (e : Engine) (off : BitVec 5) :
    windowOf (e.engineBase + off.setWidth 32) = e.window := by
  have hw := e.window.isLt
  have ho := off.isLt
  apply BitVec.eq_of_toNat_eq
  rw [windowOf, BitVec.extractLsb'_toNat, e.toNat_engineBase_add, Nat.shiftRight_eq_div_pow]
  omega

theorem offsetOf_engineBase_add (e : Engine) (off : BitVec 5) :
    offsetOf (e.engineBase + off.setWidth 32) = off := by
  have ho := off.isLt
  apply BitVec.eq_of_toNat_eq
  rw [offsetOf, BitVec.extractLsb'_toNat, e.toNat_engineBase_add, Nat.shiftRight_eq_div_pow]
  omega

/-- Instances without the window are passed over. -/
theorem focusFrom_append {win : BitVec 27} {pre es fs : List Engine} (h : ∀ e ∈ es, e.window ≠ win) :
    focusFrom win pre (es ++ fs) = focusFrom win (es.reverse ++ pre) fs := by
  induction es generalizing pre with
  | nil => rfl
  | cons e es ih =>
    rw [List.forall_mem_cons] at h
    rw [List.cons_append, focusFrom, if_neg h.1, ih h.2]
    simp

/-- The addressed instance, where it is the first with its window, stays the addressed one. -/
theorem State.focus_self {s : State} (h : ∀ e ∈ s.before, e.window ≠ s.eng.window) :
    s.focus s.eng.window = some s := by
  have hbefore : ∀ e ∈ s.before.reverse, e.window ≠ s.eng.window := by simpa using h
  simp [State.focus, State.engines, focusFrom_append hbefore, focusFrom]

/-! ### The statements -/

/-- Settles O1: each format's word decodes by its fields, and those are the ones the encoder wrote. -/
theorem decodeEncodeRoundTrip : Obligations.DecodeEncodeRoundTrip := fun _ => decode_encode

/-- Settles O2: the mnemonics of the matching rows are the one of the decoded instruction, or none. -/
theorem wordsDecodeByTheirRow : Obligations.WordsDecodeByTheirRow := by
  intro w m
  rw [← w.decodedMnemonic_eq_some, ← w.mem_rowMnemonics, rowMnemonics_eq, Option.mem_toList]

/-- Settles O10: addressing an instance changes none, and an instruction changes the addressed one alone. -/
theorem busAddressReachesItsWindow : Obligations.BusAddressReachesItsWindow := by
  refine ⟨fun s s' r i rest hp hin hbits hf hd => ?_, fun s s' win rest hp hin hf => ?_, fun s win hex => ?_,
    fun s off w d rest hp hfirst hin => ?_⟩
  · obtain ⟨heng, hwin, -⟩ := State.focus_eq_some hf
    have hstep : step s = exec i s' := (step_bus hp hin hbits hf).trans (runAccess_of_decode hd s')
    refine ⟨hstep, heng, hwin, fun t ht => ?_⟩
    rw [(exec_frame (hstep.symm.trans ht)).1]
    rfl
  · obtain ⟨heng, hwin, hframe⟩ := State.focus_eq_some hf
    have hstep : step s = .next s' := by rw [step_of_inputs hp hin, runEvent, runSelect, hf]
    refine ⟨hstep, heng, hwin, ?_⟩
    rw [hframe]
    exact ⟨rfl, rfl, rfl, rfl, rfl⟩
  · obtain ⟨s', hf, hbefore⟩ := State.focus_of_mem hex
    obtain ⟨heng, hwin, -⟩ := State.focus_eq_some hf
    exact ⟨s', hf, heng, hwin, hbefore⟩
  · have hself : State.focus (windowOf (s.eng.engineBase + off.setWidth 32)) { s with inputs := rest } =
        some { s with inputs := rest } := by
      rw [windowOf_engineBase_add]
      exact State.focus_self (s := { s with inputs := rest }) hfirst
    rw [step_bus hp hin rfl hself, offsetOf_engineBase_add]
    exact (step_of_inputs (s := { s with inputs := .access (busWord w off d) :: rest }) hp rfl).symm

/-- Settles O3: the decoder gives RD_RSV and WR_RSV at the reserved offsets alone. -/
theorem decodedInstructionsAreWellFormed : Obligations.DecodedInstructionsAreWellFormed := fun _ _ => decode_wf

/-- Settles O4: rows that match one word overlap, and no two rows of the map do. -/
theorem opcodeRowsNeverOverlap : Obligations.OpcodeRowsNeverOverlap := by
  have hdisjoint : opcodeRows.Pairwise fun r q => r.overlaps q = false := by decide
  refine hdisjoint.imp fun hno w ⟨hr, hq⟩ => ?_
  rw [OpRow.overlaps_of_matchesWord hr hq] at hno
  cases hno

/-- Settles O5: each word is a numeral, and the decoder computes. -/
theorem writtenOutWordsDecode : Obligations.WrittenOutWordsDecode := by
  unfold Obligations.WrittenOutWordsDecode
  decide

/-- Settles O6: the decoder sees OP and BUFV, and a reserved OP is no command. -/
theorem reservedCommandBitsAreIgnored : Obligations.ReservedCommandBitsAreIgnored := by
  refine ⟨fun c x => decodeCommand_xor ?_ ?_, fun c h => ?_, fun c b h => ?_, fun c s h => exec_wrCtrl_of_reserved h s⟩
  · exact BitVec.extractLsb'_and.trans BitVec.and_zero
  · exact BitVec.getLsbD_and.trans (Bool.and_false _)
  all_goals
    rw [decodeCommand_eq] at h
    rw [decodeCommand_xor_bufv]
    split_ifs at h ⊢ <;> cases h
    rfl

/-- Settles O8: a word built from fields is the sum of its fields at their places. -/
theorem assemblerFormsEncode : Obligations.AssemblerFormsEncode := by
  have hupdate : ∀ b : Byte, Asm.encoding (.uUpdate b) = .microOp (microWord 0b01#2 b) := fun _ => rfl
  refine ⟨fun r => ?_, fun r v => ?_, ⟨rfl, rfl⟩, fun b => ⟨?_, hupdate b⟩, ⟨rfl, rfl⟩, rfl, rfl, rfl, fun _ => rfl,
    fun _ _ _ _ => rfl⟩
  · simp [Asm.encoding, readWord, busWord_eq_ofNat]
  · simp [Asm.encoding, writeWord, busWord_eq_ofNat]
  · rw [hupdate, microWord_eq_ofNat]
    rfl

/-- Settles O9: each move that spells an instruction runs it, and each placed word is such a move. -/
theorem stepRunsTheDecodedInstruction : Obligations.StepRunsTheDecodedInstruction := by
  refine ⟨fun s w i rest hp hin hd => ?_, fun s i rest hp hin hs => ?_, fun s w i rest hp hin hd hs => ?_,
    fun s w i nbits hn hd => ?_, fun s c => ?_, fun s nbits hn => ?_⟩
  · exact (step_of_inputs hp hin).trans (runAccess_of_decode hd _)
  · exact (step_of_inputs hp hin).trans (runEngine_of_sequencer hs)
  · exact (step_of_inputs hp hin).trans (runMicro_of_produces hd ((State.produces_iff _ _).2 hs))
  · rw [withFetchWord_busAccess s hn]
    exact step_schedule_access hd s
  · rw [step_withFetchWord_command]
    exact ⟨fun i hd => exec_wrCtrl_of_decode hd _, fun hd => exec_wrCtrl_of_reserved hd _⟩
  · rw [step_withFetchWord_init s hn, step_withFetchWord_finish s hn]
    refine ⟨rfl, fun b => ?_, rfl, (State.readyForFinish_ready { s with resetPin := false }).2⟩
    rw [step_withFetchWord_update s hn]
    exact ⟨rfl, (State.readyForUpdate_ready { s with resetPin := false } b).2⟩

end Sys2Proof.Machine
end

section
/-! PROOFS. The host commands family (spec 40_host_commands): what each register access and command does to the state,
what it can do while a transaction runs, validation, the completions, and the contract of a transaction with the host's
moves between its steps. -/

namespace Sys2Proof.Machine

/-! ### Register reads (40 R76 to R82) -/

/-- Both reserved slots read 0, so RD_RSV does, whatever its offset (40 R82; assumption log 19). -/
theorem exec_rdRsv (off : BitVec 5) (s : State) : exec (.rdRsv off) s = .next (s.returnToHost 0x00000000#32) := by
  simp only [exec, execRdRsv]
  split <;> rfl

/-- STATUS as a number: its three fields at their places (10_state R30). -/
theorem Engine.statusWord_eq (e : Engine) :
    e.statusWord = BitVec.ofNat 32 (e.ERR.toNat * 16 + e.DONE.toNat * 2 + e.BUSY.toNat) := by
  have hfields : ∀ (err : BitVec 4) (done busy : Bool),
      zext32 (err ++ 0b00#2 ++ BitVec.ofBool done ++ BitVec.ofBool busy) =
        BitVec.ofNat 32 (err.toNat * 16 + done.toNat * 2 + busy.toNat) := by decide
  exact hfields e.ERR e.DONE e.BUSY

theorem exec_rdStatus (s : State) :
    exec .rdStatus s = .next { s with
      readData := some (BitVec.ofNat 32 (s.eng.ERR.toNat * 16 + s.eng.DONE.toNat * 2 + s.eng.BUSY.toNat)) } := by
  rw [← s.eng.statusWord_eq]
  rfl

theorem exec_rdResult (s : State) :
    exec .rdResult s = .next { s with readData := some (BitVec.ofNat 32 s.eng.RESULT.toNat) } := by
  rw [BitVec.ofNat_toNat]
  rfl

/-- There is no result during BUSY, in IDLE and after an error (10_state R34, R38). -/
theorem Engine.Inv.result_zero {e : Engine} (h : e.Inv)
    (hno : e.BUSY = true ∨ e.DONE = false ∨ e.ERR ≠ 0x0#4) : e.RESULT = 0x00#8 := by
  cases hb : e.BUSY with
  | true =>
    obtain ⟨-, -, hres, -⟩ := h.busy hb
    exact hres
  | false =>
    cases hd : e.DONE with
    | false =>
      obtain ⟨-, -, -, hres⟩ := h.idle hb hd
      exact hres
    | true => exact h.error hd (by simpa [hb, hd] using hno)

/-! ### Register writes (40 R83 to R88) -/

/-- The word of a write is the row's pattern with DATA in its low bits (30 R63). -/
theorem decode_or_data {p : BitVec 38} {off : BitVec 5} (hp : p = writeWord off 0#32) (v : Word32) :
    decode (.busAccess (p ||| v.setWidth 38)) = decodeWrite off v := by
  have hword : p ||| v.setWidth 38 = writeWord off v := by simp [hp, writeWord, busWord]
  rw [hword, decode_writeWord]

/-- Outside BUSY a parameter write takes effect (40 R83). -/
theorem Engine.writeParam_of_not_busy {e : Engine} (h : e.BUSY = false) (f : Engine) : e.writeParam f = f := by
  simp [Engine.writeParam, h]

theorem exec_wrBase (v : Word32) (s : State) :
    exec (.wrBase v) s = .next { s with eng := { s.eng with BASE := if s.eng.BUSY then s.eng.BASE else v } } := by
  simp only [exec, execWrBase, Engine.writeParam]
  split <;> rfl

theorem exec_wrSize (v : Word32) (s : State) :
    exec (.wrSize v) s = .next { s with eng := { s.eng with SIZE := if s.eng.BUSY then s.eng.SIZE else v } } := by
  simp only [exec, execWrSize, Engine.writeParam]
  split <;> rfl

theorem exec_wrLen (v : Word32) (s : State) :
    exec (.wrLen v) s = .next { s with eng := { s.eng with LEN := if s.eng.BUSY then s.eng.LEN else v } } := by
  simp only [exec, execWrLen, Engine.writeParam]
  split <;> rfl

theorem exec_wrBase_of_not_busy {s : State} (h : s.eng.BUSY = false) (v : Word32) :
    exec (.wrBase v) s = .next (s.setEng (s.eng.setBase v)) := by
  simp only [exec, execWrBase, Engine.writeParam_of_not_busy h]

theorem exec_wrSize_of_not_busy {s : State} (h : s.eng.BUSY = false) (v : Word32) :
    exec (.wrSize v) s = .next (s.setEng (s.eng.setSize v)) := by
  simp only [exec, execWrSize, Engine.writeParam_of_not_busy h]

theorem exec_wrLen_of_not_busy {s : State} (h : s.eng.BUSY = false) (v : Word32) :
    exec (.wrLen v) s = .next (s.setEng (s.eng.setLen v)) := by
  simp only [exec, execWrLen, Engine.writeParam_of_not_busy h]

/-! ### Commands (40 R89 to R94) -/

/-- OP as a number: bits 3:0 (30 R64). -/
theorem toNat_cmdOp (c : BitVec 32) : (cmdOp c).toNat = c.toNat % 16 := by
  rw [cmdOp, BitVec.extractLsb'_toNat, Nat.shiftRight_zero]

/-- BUFV as a number: bit 8 (30 R64). -/
theorem cmdBufv_eq (c : BitVec 32) : cmdBufv c = decide (c.toNat / 256 % 2 = 1) :=
  Nat.testBit_eq_decide_div_mod_eq

/-- A COMPUTE while BUSY is ignored (40 R91). -/
theorem exec_compute_of_busy {s : State} (h : s.eng.BUSY = true) (bufv : Bool) :
    exec (.compute bufv) s = .next s := by
  simp [exec, execCompute, Engine.compute, h]

/-- A COMPUTE outside BUSY is an accept (40 R92). -/
theorem exec_compute_of_not_busy {s : State} (h : s.eng.BUSY = false) (bufv : Bool) :
    exec (.compute bufv) s = .next (s.setEng (s.eng.accept bufv)) := by
  simp only [exec, execCompute, Engine.compute_of_not_busy h]

theorem eq_accept_of_exec_compute {s t : State} {bufv : Bool} (hb : s.eng.BUSY = false)
    (h : exec (.compute bufv) s = .next t) : t = s.setEng (s.eng.accept bufv) := by
  rw [exec_compute_of_not_busy hb] at h
  exact (Host.Outcome.next.inj h).symm

/-- A COMPUTE whose parameters validation rejects reports the error at the accept (40 R93, R96). -/
theorem exec_compute_of_err {s : State} {bufv : Bool} {c : ErrCode} (hb : s.eng.BUSY = false)
    (h : validate bufv s.eng.BASE s.eng.SIZE s.eng.LEN = .err c) :
    ∃ t, exec (.compute bufv) s = .next t ∧ t.eng.ERR = c.code ∧ t.eng.DONE = true := by
  refine ⟨_, exec_compute_of_not_busy hb bufv, ?_⟩
  rw [State.setEng_eng, Engine.accept_of_err h]
  exact ⟨rfl, rfl⟩

/-! ### What a register access can do (40 R83, R87 to R91) -/

/-- The instruction is a register access, of format B (30 R68). -/
def isRegisterAccess : Instr → Bool
  | .nop | .compute _ | .init | .update _ | .finish => false
  | _ => true

/-- Every B word that decodes is a register access (30 R68). -/
theorem isRegisterAccess_of_decodeBus {w : BitVec 38} {i : Instr} (h : decodeBus w = .ok i) :
    isRegisterAccess i = true := by
  simp only [decodeBus, decodeWrite, decodeRead] at h
  split at h <;> split at h <;> cases h <;> rfl

/-- A register access completes. It changes nothing of a BUSY instance, and where it issues no COMPUTE it changes at
most the parameters. -/
theorem exec_access {i : Instr} (hi : isRegisterAccess i = true) (s : State) :
    ∃ e rd, exec i s = .next { s with eng := e, readData := rd } ∧ (s.eng.BUSY = true → e = s.eng) ∧
      (quietInstr i = true → e = { s.eng with BASE := e.BASE, SIZE := e.SIZE, LEN := e.LEN }) := by
  cases i with
  | nop | compute | init | update | finish => cases hi
  | rdCtrl | rdStatus | rdBase | rdSize | rdLen | rdResult | rdRsv => exact ⟨_, _, rfl, fun _ => rfl, fun _ => rfl⟩
  | wrStatus | wrResult | wrRsv => exact ⟨_, _, rfl, fun _ => rfl, fun _ => rfl⟩
  | wrBase v => exact ⟨_, _, exec_wrBase v s, fun hb => by rw [if_pos hb], fun _ => rfl⟩
  | wrSize v => exact ⟨_, _, exec_wrSize v s, fun hb => by rw [if_pos hb], fun _ => rfl⟩
  | wrLen v => exact ⟨_, _, exec_wrLen v s, fun hb => by rw [if_pos hb], fun _ => rfl⟩
  | wrCtrl c =>
    simp only [exec, execWrCtrl_eq]
    split
    · rename_i hop
      exact ⟨_, _, rfl, fun hb => by simp [Engine.compute, hb], fun hq => by simp [quietInstr, hop] at hq⟩
    · exact ⟨_, _, rfl, fun _ => rfl, fun _ => rfl⟩

/-- What a quiet access does: it completes, and the same holds of it. -/
theorem runAccess_quiet {w : BitVec 38} (hq : quietAccess w = true) (s : State) :
    ∃ e rd, runAccess w s = .next { s with eng := e, readData := rd } ∧ (s.eng.BUSY = true → e = s.eng) ∧
      e = { s.eng with BASE := e.BASE, SIZE := e.SIZE, LEN := e.LEN } := by
  unfold quietAccess at hq
  split at hq
  · rename_i i hd
    obtain ⟨e, rd, hex, hbusy, hparams⟩ := exec_access (isRegisterAccess_of_decodeBus hd) s
    exact ⟨e, rd, (runAccess_of_decode hd s).trans hex, hbusy, hparams hq⟩
  · cases hq

/-- No change moves the parameters of a BUSY instance (40 R83). -/
theorem EngineChange.params_of_busy {T : Table} {ad : List Config.AdmitRange} {e f : Engine}
    (h : EngineChange T ad e f) (hb : e.BUSY = true) : f.BASE = e.BASE ∧ f.SIZE = e.SIZE ∧ f.LEN = e.LEN := by
  cases h with
  | same | clear | fold | complete => exact ⟨rfl, rfl, rfl⟩
  | setBase v hidle | setSize v hidle | setLen v hidle | accept bufv hidle => simp [hb] at hidle

/-! ### The bytes of a buffer -/

/-- The remainder after the bytes `bs` are folded into `r` (41 R102). -/
def foldBytes (T : Table) (r : Byte) (bs : List Byte) : Byte := bs.foldl (fun r b => lookup T (tableIndex b r)) r

theorem crc8_eq_foldBytes (T : Table) (bs : List Byte) : crc8 T bs = foldBytes T 0x00#8 bs := rfl

theorem foldBytes_cons (T : Table) (r b : Byte) (bs : List Byte) :
    foldBytes T r (b :: bs) = foldBytes T (lookup T (tableIndex b r)) bs := rfl

theorem bufferBytes_succ (m : Memory) (a k : Nat) : bufferBytes m a (k + 1) = m.byte a :: bufferBytes m (a + 1) k := by
  simp [bufferBytes, List.range_succ_eq_map, Nat.add_assoc, Nat.add_comm 1]

theorem bufferBytes_congr {m m' : Memory} {a k : Nat} (h : ∀ j, j < k → m'.byte (a + j) = m.byte (a + j)) :
    bufferBytes m' a k = bufferBytes m a k :=
  List.map_congr_left fun j hj => h j (List.mem_range.1 hj)

/-! ### A transaction between its accept and its end (40 R98, 41 R100) -/

/-- The transaction over `[base, base + n)` runs with `m` bytes still to read, those at the end of the buffer, and
folding them into the remainder gives `v`. -/
structure State.Running (s : State) (base n : Nat) (v : Byte) (m : Nat) : Prop where
  bytes : s.HasBytesToRead m
  start : base ≤ s.eng.readAddress
  stop : s.eng.readAddress + m = base + n
  result : foldBytes s.rom s.eng.R (bufferBytes s.mem s.eng.readAddress m) = v

/-- The last transaction has succeeded with the result `v` (40 R95). -/
structure State.Succeeded (s : State) (v : Byte) : Prop where
  done : s.eng.DONE = true
  busy : s.eng.BUSY = false
  err : s.eng.ERR = 0x0#4
  result : s.eng.RESULT = v

/-- The transaction over `[base, base + n)` runs, or has ended; its result is to be `v`. -/
def State.Serves (s : State) (base n : Nat) (v : Byte) : Prop := (∃ m, s.Running base n v m) ∨ s.Succeeded v

/-- A move that leaves the instance, the platform and the bytes still to read alone leaves the transaction alone. -/
theorem State.Running.of_same_bytes {s t : State} {base n m : Nat} {v : Byte} (h : s.Running base n v m)
    (heng : t.eng = s.eng) (hrom : t.rom = s.rom) (hadm : t.admission = s.admission)
    (hmem : ∀ a, base ≤ a → a < base + n → t.mem.byte a = s.mem.byte a) : t.Running base n v m := by
  obtain ⟨⟨hbusy, hlen, hspace, hadmitted⟩, hstart, hstop, hres⟩ := h
  have hbytes : bufferBytes t.mem s.eng.readAddress m = bufferBytes s.mem s.eng.readAddress m :=
    bufferBytes_congr fun j hj => hmem _ (by omega) (by omega)
  constructor
  · constructor <;> rw [heng]
    · exact hbusy
    · exact hlen
    · exact hspace
    · exact fun k hk => hadm ▸ hadmitted k hk
  · rwa [heng]
  · rwa [heng]
  · rwa [heng, hrom, hbytes]

/-- The engine's step folds the next byte, where one is left. -/
theorem State.Running.fold {s : State} {base n m : Nat} {v : Byte} (h : s.Running base n v (m + 1)) :
    (s.setEng (s.eng.fold s.rom (s.mem.byte s.eng.readAddress))).Running base n v m := by
  obtain ⟨hbytes, hstart, hstop, hres⟩ := h
  obtain ⟨hrest, haddr⟩ := hbytes.fold (s.mem.byte s.eng.readAddress)
  refine ⟨hrest, by omega, by omega, ?_⟩
  rw [haddr]
  rwa [bufferBytes_succ, foldBytes_cons] at hres

/-- With no byte left FINISH publishes the remainder, which is the result (41 R103). -/
theorem State.Running.succeeded {s : State} {base n : Nat} {v : Byte} (h : s.Running base n v 0) :
    (s.setEng (s.eng.completeOk s.eng.R)).Succeeded v :=
  ⟨rfl, rfl, rfl, h.result⟩

/-- A quiet move completes and leaves the transaction running, or takes it one step on. -/
theorem State.Running.runEvent_quiet {s : State} {base n m : Nat} {v : Byte} (h : s.Running base n v m) {ev : Event}
    (hq : ev.quiet base n = true) : ∃ t, runEvent ev s = .next t ∧ t.Serves base n v := by
  cases ev with
  | access w =>
    obtain ⟨e, rd, hrun, hsame, -⟩ := runAccess_quiet hq s
    obtain rfl := hsame h.bytes.busy
    exact ⟨_, hrun, .inl ⟨m, h.of_same_bytes rfl rfl rfl fun _ _ _ => rfl⟩⟩
  | memWrite a u =>
    simp only [Event.quiet, Bool.or_eq_true, decide_eq_true_eq] at hq
    refine ⟨s.hostWrite a u, rfl, .inl ⟨m, h.of_same_bytes rfl rfl rfl fun b hlo hhi => ?_⟩⟩
    exact Memory.byte_set_other _ _ (by omega)
  | memRead a => exact ⟨_, rfl, .inl ⟨m, h.of_same_bytes rfl rfl rfl fun _ _ _ => rfl⟩⟩
  | engine =>
    cases m with
    | zero => exact ⟨_, h.bytes.runEngine_zero, .inr h.succeeded⟩
    | succ m => exact ⟨_, h.bytes.runEngine_eq, .inl ⟨m, h.fold⟩⟩
  | bus | micro | select | reset => cases hq

/-- A quiet move completes and leaves the outcome of a transaction that has ended. -/
theorem State.Succeeded.runEvent_quiet {s : State} {base n : Nat} {v : Byte} (h : s.Succeeded v) {ev : Event}
    (hq : ev.quiet base n = true) : ∃ t, runEvent ev s = .next t ∧ t.Succeeded v := by
  cases ev with
  | access w =>
    obtain ⟨e, rd, hrun, -, hparams⟩ := runAccess_quiet hq s
    refine ⟨_, hrun, ?_⟩
    rw [hparams]
    exact ⟨h.done, h.busy, h.err, h.result⟩
  | memWrite a u => exact ⟨_, rfl, h.done, h.busy, h.err, h.result⟩
  | memRead a => exact ⟨_, rfl, h.done, h.busy, h.err, h.result⟩
  | engine => exact ⟨s, runEngine_of_sequencer_none (State.sequencer_of_not_busy h.busy), h⟩
  | bus | micro | select | reset => cases hq

/-- A move changes neither the moves still to come nor the reset pin. -/
theorem runEvent_schedule {ev : Event} {s t : State} (h : runEvent ev s = .next t) :
    t.inputs = s.inputs ∧ t.resetPin = s.resetPin := by
  rcases runEvent_next h with ⟨-, rfl⟩ | ⟨a, v, -, rfl⟩ | ⟨s', e, rd, -, hs', -, rfl⟩
  · exact ⟨rfl, rfl⟩
  · exact ⟨rfl, rfl⟩
  · rw [hs']
    exact ⟨rfl, rfl⟩

/-- A quiet move completes and leaves the transaction running or ended. -/
theorem State.Serves.runEvent_quiet {s : State} {base n : Nat} {v : Byte} (h : s.Serves base n v) {ev : Event}
    (hq : ev.quiet base n = true) : ∃ t, runEvent ev s = .next t ∧ t.Serves base n v := by
  rcases h with ⟨m, hm⟩ | hs
  · exact hm.runEvent_quiet hq
  · obtain ⟨t, ht, hsucc⟩ := hs.runEvent_quiet hq
    exact ⟨t, ht, .inr hsucc⟩

/-- Taking moves off the schedule leaves the transaction alone. -/
theorem State.Serves.of_inputs {s : State} {base n : Nat} {v : Byte} (h : s.Serves base n v) (evs : List Event) :
    State.Serves { s with inputs := evs } base n v :=
  h.imp (fun ⟨m, hm⟩ => ⟨m, hm.of_same_bytes rfl rfl rfl fun _ _ _ => rfl⟩)
    fun hs => ⟨hs.done, hs.busy, hs.err, hs.result⟩

/-- The quiet moves that are scheduled run one after the other, and leave the transaction running or ended. -/
theorem State.Serves.run_quiet {s : State} {base n : Nat} {v : Byte} {evs : List Event} (h : s.Serves base n v)
    (hpin : s.resetPin = false) (hin : s.inputs = evs) (hq : ∀ ev ∈ evs, ev.quiet base n = true) (k : Nat) :
    ∃ t, Host.Core.run core (evs.length + k) s = Host.Core.run core k t ∧ t.Serves base n v ∧
      t.inputs = [] ∧ t.resetPin = false := by
  induction evs generalizing s with
  | nil => exact ⟨s, by rw [List.length_nil, Nat.zero_add], h, hin, hpin⟩
  | cons ev rest ih =>
    rw [List.forall_mem_cons] at hq
    obtain ⟨t, ht, hserves⟩ := (h.of_inputs rest).runEvent_quiet hq.1
    obtain ⟨hin', hpin'⟩ := runEvent_schedule ht
    obtain ⟨u, hrun, hu⟩ := ih hserves (hpin'.trans hpin) hin' hq.2
    refine ⟨u, ?_, hu⟩
    rw [List.length_cons, Nat.add_right_comm, run_succ_of_step ((step_of_inputs hpin hin).trans ht), hrun]

/-- With nothing scheduled an engine that is not BUSY waits, however many steps it is given. -/
theorem run_of_not_busy {s : State} (hpin : s.resetPin = false) (hin : s.inputs = []) (hb : s.eng.BUSY = false)
    (k : Nat) : Host.Core.run core k s = .next s := by
  have hstep : step s = .next s :=
    (step_of_no_inputs hpin hin).trans (runEngine_of_sequencer_none (State.sequencer_of_not_busy hb))
  induction k with
  | zero => rfl
  | succ k ih => rw [run_succ_of_step hstep, ih]

/-- With nothing scheduled the engine folds the bytes left, finishes, and waits. -/
theorem State.Running.run_alone {s : State} {base n m : Nat} {v : Byte} (h : s.Running base n v m)
    (hpin : s.resetPin = false) (hin : s.inputs = []) (k : Nat) :
    ∃ t, Host.Core.run core (m + 1 + k) s = .next t ∧ t.Succeeded v := by
  induction m generalizing s with
  | zero =>
    have hstep := (step_of_no_inputs hpin hin).trans h.bytes.runEngine_zero
    refine ⟨_, ?_, h.succeeded⟩
    rw [Nat.zero_add, Nat.add_comm, run_succ_of_step hstep]
    exact run_of_not_busy (s := s.setEng (s.eng.completeOk s.eng.R)) hpin hin rfl k
  | succ m ih =>
    have hstep := (step_of_no_inputs hpin hin).trans h.bytes.runEngine_eq
    rw [Nat.add_right_comm (m + 1), run_succ_of_step hstep]
    exact ih h.fold hpin hin

/-- With nothing scheduled `n + 1` steps of the engine are enough to end the transaction. -/
theorem State.Serves.run_alone {s : State} {base n : Nat} {v : Byte} (h : s.Serves base n v)
    (hpin : s.resetPin = false) (hin : s.inputs = []) :
    ∃ t, Host.Core.run core (n + 1) s = .next t ∧ t.Succeeded v := by
  rcases h with ⟨m, hm⟩ | hs
  · obtain ⟨j, hj⟩ : ∃ j, n + 1 = m + 1 + j := ⟨n - m, by have := hm.start; have := hm.stop; omega⟩
    rw [hj]
    exact hm.run_alone hpin hin j
  · exact ⟨s, run_of_not_busy hpin hin hs.busy (n + 1), hs⟩

/-- An accept that validation answers `Ok(n)` starts the transaction over the `n` bytes of the buffer, and ends it at
once where `n` is 0 (40 R93). -/
theorem State.serves_of_compute {s s1 : State} {bufv : Bool} {n : Nat} (hidle : s.eng.BUSY = false)
    (hok : validate bufv s.eng.BASE s.eng.SIZE s.eng.LEN = .ok n) (hadm : BufferAdmitted s s.eng.BASE.toNat n)
    (h : exec (.compute bufv) s = .next s1) :
    s1.Serves s.eng.BASE.toNat n (crc8 s.rom (bufferBytes s.mem s.eng.BASE.toNat n)) := by
  obtain rfl := eq_accept_of_exec_compute hidle h
  rcases Nat.eq_zero_or_pos n with rfl | hpos
  · rw [Engine.accept_of_zero hok]
    exact .inr ⟨rfl, rfl, rfl, rfl⟩
  · obtain ⟨hlen, ⟨hn0, -⟩ | ⟨rfl, hsize, htop⟩⟩ := (validate_eq_ok ..).1 hok
    · omega
    · obtain ⟨hbytes, haddr⟩ := State.hasBytesToRead_of_compute hidle hlen hpos (by exact_mod_cast hsize)
        (by exact_mod_cast htop) hadm h
      refine .inl ⟨n, hbytes, haddr.ge, by rw [haddr], ?_⟩
      rw [haddr, Engine.accept_of_pos hpos hok, crc8_eq_foldBytes]
      rfl

/-! ### The statements -/

/-- Settles O38: the scheduled moves leave the transaction running or ended, and the engine's moves after them end
it. -/
theorem interleavedTransactionHasTheContractsOutcome : Obligations.InterleavedTransactionHasTheContractsOutcome := by
  intro s s1 bufv hidle hpin h
  have hs1 := eq_accept_of_exec_compute hidle h
  refine ⟨fun c hc => ?_, fun n hok hadm hq => ?_⟩
  · rw [hs1, Engine.accept_of_err hc]
    exact ⟨rfl, rfl, rfl, rfl⟩
  · have hserves := State.serves_of_compute hidle hok hadm h
    obtain ⟨u, hrun, hu, hin, hpin'⟩ := hserves.run_quiet (by rwa [hs1]) (by rw [hs1]; rfl) hq (n + 1)
    obtain ⟨t, ht, hdone⟩ := hu.run_alone hpin' hin
    exact ⟨t, hrun.trans ht, hdone.done, hdone.busy, hdone.err, hdone.result⟩

/-- Settles O49: a register access changes nothing of a BUSY instance. -/
theorem hostCannotDisturbARunningTransaction : Obligations.HostCannotDisturbARunningTransaction := by
  intro w i s hb hd
  obtain ⟨e, rd, hex, hsame, -⟩ := exec_access (isRegisterAccess_of_decodeBus hd) s
  exact ⟨_, hex, hsame hb, rfl⟩

/-- Settles O50: no change an instance can undergo moves the parameters while BUSY. -/
theorem parametersStayConstantWhileBusy : Obligations.ParametersStayConstantWhileBusy := by
  intro s t k e h hr hk hb
  obtain ⟨f, hf, hc⟩ := step_engine_change h hr hk
  exact ⟨f, hf, hc.params_of_busy hb⟩

/-- Settles O11: CTRL and the reserved slots have no storage. -/
theorem ctrlAndReservedSlotsReadZero : Obligations.CtrlAndReservedSlotsReadZero :=
  ⟨by decide, by decide, by decide, fun s => ⟨rfl, fun off _ => exec_rdRsv off s⟩⟩

/-- Settles O12: a write while BUSY = 0 stores what the next read returns. -/
theorem parameterRegistersReadBack : Obligations.ParameterRegistersReadBack := by
  refine ⟨by decide, fun _ => ⟨rfl, rfl, rfl⟩, fun s v hb => ⟨?_, ?_, ?_⟩, fun _ => ⟨rfl, rfl, rfl⟩⟩
  · exact ⟨_, exec_wrBase_of_not_busy hb v, rfl⟩
  · exact ⟨_, exec_wrSize_of_not_busy hb v, rfl⟩
  · exact ⟨_, exec_wrLen_of_not_busy hb v, rfl⟩

/-- Settles O13: each case is the formula at the fields it names. -/
theorem statusReads : Obligations.StatusReads := by
  refine ⟨by decide, exec_rdStatus, fun s => exec_rdStatus s.applyReset, fun s hinv hb => ?_, fun s hb hd => ?_⟩
  · obtain ⟨hd, hE, -⟩ := hinv.busy hb
    rw [exec_rdStatus, hb, hd, hE]
    rfl
  · refine ⟨fun hE => ?_, fun hE => ?_, fun hE => ?_⟩ <;> rw [exec_rdStatus, hb, hd, hE] <;> rfl

/-- Settles O15: the invariant leaves RESULT 0 wherever there is no result. -/
theorem resultReads : Obligations.ResultReads := by
  refine ⟨by decide, exec_rdResult, fun s hinv hno => ?_⟩
  rw [exec_rdResult, hinv.result_zero hno]
  rfl

/-- Settles O17: the value written is the one a later COMPUTE validates. -/
theorem parameterWrites : Obligations.ParameterWrites := by
  refine ⟨fun v => ⟨?_, ?_, ?_⟩, fun s v => ⟨exec_wrBase v s, exec_wrSize v s, exec_wrLen v s⟩,
    fun s v hb => ⟨fun hpos htop => ?_, fun hpos => ?_, fun hneg bufv => ?_⟩⟩
  · exact decode_or_data (off := 0x08#5) (by decide) v
  · exact decode_or_data (off := 0x0C#5) (by decide) v
  · exact decode_or_data (off := 0x10#5) (by decide) v
  · have hv : validate true v s.eng.SIZE s.eng.LEN = .err .invalidLength :=
      (validate_eq_invalidLength ..).2 (.inr ⟨rfl, hpos.le, .inr htop⟩)
    obtain ⟨u, hu⟩ := exec_compute_of_err (s := s.setEng (s.eng.setBase v)) hb hv
    exact ⟨_, u, exec_wrBase_of_not_busy hb v, hu⟩
  · have hv : validate true s.eng.BASE 0#32 s.eng.LEN = .err .invalidLength :=
      (validate_eq_invalidLength ..).2 (.inr ⟨rfl, hpos.le, .inl hpos⟩)
    obtain ⟨u, hu⟩ := exec_compute_of_err (s := s.setEng (s.eng.setSize 0#32)) hb hv
    exact ⟨_, u, exec_wrSize_of_not_busy hb 0#32, hu⟩
  · have hv : validate bufv s.eng.BASE s.eng.SIZE v = .err .invalidLength :=
      (validate_eq_invalidLength ..).2 (.inl hneg)
    obtain ⟨u, hu⟩ := exec_compute_of_err (s := s.setEng (s.eng.setLen v)) hb hv
    exact ⟨_, u, exec_wrLen_of_not_busy hb v, hu⟩

/-- Settles O18: the four offsets' writes have no effect. -/
theorem readOnlyWritesAreIgnored : Obligations.ReadOnlyWritesAreIgnored := by
  refine ⟨fun v => ⟨?_, ?_, ?_, ?_⟩, fun s v => ⟨rfl, rfl, fun off _ => ⟨rfl, exec_rdRsv off s⟩⟩⟩
  · exact decode_or_data (off := 0x04#5) (by decide) v
  · exact decode_or_data (off := 0x14#5) (by decide) v
  · exact decode_or_data (off := 0x18#5) (by decide) v
  · exact decode_or_data (off := 0x1C#5) (by decide) v

/-- Settles O19: OP and BUFV are the word's bits 3:0 and 8. -/
theorem ctrlWriteIssuesItsCommand : Obligations.CtrlWriteIssuesItsCommand := by
  refine ⟨decode_or_data (off := 0x00#5) (by decide), fun s c => ?_⟩
  rw [← toNat_cmdOp, ← cmdBufv_eq]
  have hother : (cmdOp c).toNat ≠ 1 → exec (.wrCtrl c) s = .next s := fun hop =>
    (execWrCtrl_eq c s).trans (if_neg fun h => hop (congrArg _ h))
  refine ⟨fun h0 => ?_, fun h1 => ?_, fun h2 => hother (by omega), ?_⟩
  · have hnop := hother (by omega)
    exact ⟨hnop, hnop⟩
  · exact (execWrCtrl_eq c s).trans (if_pos (BitVec.eq_of_toNat_eq h1))
  · obtain ⟨e, rd, hex, -⟩ := exec_access (i := .wrCtrl c) rfl s
    exact ⟨_, hex, rfl⟩

/-- Settles O20: NOP's row looks at OP alone. -/
theorem nopChangesNothing : Obligations.NopChangesNothing := by
  refine ⟨fun c hc => ?_, fun _ => rfl⟩
  have hop : cmdOp c = 0x0#4 := BitVec.eq_of_toNat_eq ((and_opMask c).symm.trans (congrArg BitVec.toNat hc))
  rw [decode, decodeCommand_eq, if_pos hop]

/-- Settles O21: BUSY is what a COMPUTE looks at first. -/
theorem computeWhileBusyIsIgnored : Obligations.ComputeWhileBusyIsIgnored := fun _ bufv hb =>
  exec_compute_of_busy hb bufv

/-- Settles O25: the premises are those of validation's `Ok(n)` with `n >= 1`. -/
theorem computeStartsTransaction : Obligations.ComputeStartsTransaction := by
  intro s hb hpos hsize htop
  obtain ⟨n, hn⟩ := Int.eq_ofNat_of_zero_le (show 0 ≤ s.eng.LEN.toInt by omega)
  rw [hn] at hpos hsize htop
  have hok : validate true s.eng.BASE s.eng.SIZE s.eng.LEN = .ok n :=
    (validate_eq_ok ..).2 ⟨hn, .inr ⟨rfl, hsize, htop⟩⟩
  rw [exec_compute_of_not_busy hb, Engine.accept_of_pos (by omega) hok]
  rfl

/-- Settles O26: each answer of validation, with the numbers written out. -/
theorem validationDecidesByTheFirstCheck : Obligations.ValidationDecidesByTheFirstCheck := by
  intro bufv base size len
  refine ⟨(validate_eq_invalidLength ..).trans ?_, validate_eq_nullBuffer .., fun n => (validate_eq_ok ..).trans ?_⟩
  all_goals
    simp only [sint32, uint32, Config.addrSpace]
    cases bufv
    · simp
    · simp only [true_and]
      omega

/-- Settles O27: STATUS after a completion is its formula with DONE 1 and BUSY 0. -/
theorem completionsReport : Obligations.CompletionsReport := by
  refine ⟨fun e v => ⟨rfl, ?_, rfl⟩, fun e c => ⟨rfl, ?_, rfl⟩, rfl, rfl⟩
  · exact (e.completeOk v).statusWord_eq
  · refine (e.completeError c).statusWord_eq.trans ?_
    simp only [Engine.completeError_ERR, Engine.completeError_DONE, Engine.completeError_BUSY]
    cases c <;> decide

/-- Settles O58: RD_RSV and WR_RSV do not look at the offset. -/
theorem reservedAccessTermsActAsReservedSlots : Obligations.ReservedAccessTermsActAsReservedSlots := fun s _ off =>
  ⟨exec_rdRsv off s, rfl⟩

end Sys2Proof.Machine
end

section
/-! PROOFS. The lookup pipeline's family (spec 41_lookup_pipeline): the fold over a sequence of bytes, what each
micro-operation does and where it stops, the state of a transaction after each of its steps, and that two transactions
over the same buffer run in lockstep. -/

namespace Sys2Proof.Machine

/-! ### The fold over a sequence (41 R105, R110, R111) -/

/-- The fold over two pieces goes on from the first piece's (41 R110). -/
theorem crc8_append (T : Table) (as bs : List Byte) : crc8 T (as ++ bs) = foldBytes T (crc8 T as) bs :=
  List.foldl_append

/-- One byte more is one update more (41 R102). -/
theorem crc8_append_singleton (T : Table) (bs : List Byte) (b : Byte) :
    crc8 T (bs ++ [b]) = lookup T (tableIndex b (crc8 T bs)) :=
  crc8_append T bs [b]

/-- A byte equal to the remainder has the index 0 (41 R102, R111). -/
@[simp] theorem tableIndex_self (r : Byte) : tableIndex r r = 0x00#8 := BitVec.xor_self

/-- A byte 0 has the remainder as its index (41 R102). -/
@[simp] theorem tableIndex_zero (r : Byte) : tableIndex 0x00#8 r = r := BitVec.zero_xor

/-- A buffer one byte longer ends in the byte after the shorter one. -/
theorem bufferBytes_succ_last (m : Memory) (a k : Nat) :
    bufferBytes m a (k + 1) = bufferBytes m a k ++ [m.byte (a + k)] := by
  simp [bufferBytes, List.range_succ]

/-! ### The micro-operations where they are enabled (41 R100 to R103) -/

/-- Every accept runs INIT (41 R101). -/
theorem Engine.accept_R_I (e : Engine) (bufv : Bool) : (e.accept bufv).R = 0x00#8 ∧ (e.accept bufv).I = 0#32 := by
  cases h : validate bufv e.BASE e.SIZE e.LEN with
  | err c => rw [Engine.accept_of_err h]; exact ⟨rfl, rfl⟩
  | ok n =>
    rcases Nat.eq_zero_or_pos n with rfl | hn
    · rw [Engine.accept_of_zero h]; exact ⟨rfl, rfl⟩
    · rw [Engine.accept_of_pos hn h]; exact ⟨rfl, rfl⟩

/-- UPDATE is enabled, and the platform completes its read: the premise of 41 R102. -/
structure State.UpdateReady (s : State) : Prop where
  busy : s.eng.BUSY = true
  more : (uint32 s.eng.I : Int) < sint32 s.eng.LEN
  inSpace : s.eng.readAddress < Config.addrSpace
  admitted : admits s.admission s.eng.readAddress = true

theorem State.UpdateReady.enabled {s : State} (h : s.UpdateReady) : s.eng.updateEnabled = true :=
  (Engine.updateEnabled_iff _).2 ⟨h.busy, h.more⟩

theorem State.UpdateReady.exec_update {s : State} (h : s.UpdateReady) (b : Byte) :
    exec (.update b) s = .next (s.setEng (s.eng.fold s.rom b)) :=
  execUpdate_eq_next.2 ⟨h.enabled, h.inSpace, h.admitted, rfl⟩

theorem State.UpdateReady.sequencer_eq {s : State} (h : s.UpdateReady) :
    s.sequencer = some (.update (s.mem.byte s.eng.readAddress)) :=
  (s.sequencer_eq_update _).2 ⟨h.enabled, (s.memRead_eq_some _ _).2 ⟨h.inSpace, h.admitted, rfl⟩⟩

/-- While the read of an enabled UPDATE is not admitted the sequencer has no step (60 R119). -/
theorem State.sequencer_of_not_admitted {s : State} (hu : s.eng.updateEnabled = true)
    (hadm : admits s.admission s.eng.readAddress = false) : s.sequencer = none := by
  simp [State.sequencer, hu, State.memRead, hadm]

/-- The sequencer's UPDATE completes. -/
theorem exec_update_of_sequencer {s : State} {b : Byte} (h : s.sequencer = some (.update b)) :
    exec (.update b) s = .next (s.setEng (s.eng.fold s.rom b)) := by
  obtain ⟨hu, hread⟩ := (s.sequencer_eq_update b).1 h
  obtain ⟨hspace, hadm, -⟩ := (s.memRead_eq_some _ _).1 hread
  exact execUpdate_eq_next.2 ⟨hu, hspace, hadm, rfl⟩

/-- FINISH where every byte is folded (41 R103). -/
theorem exec_finish_of_enabled {s : State} (h : s.eng.finishEnabled = true) :
    exec .finish s = .next (s.setEng (s.eng.completeOk s.eng.R)) :=
  execFinish_eq_next.2 ⟨h, rfl⟩

/-- The sequencer's FINISH completes. -/
theorem exec_finish_of_sequencer {s : State} (h : s.sequencer = some .finish) :
    exec .finish s = .next (s.setEng (s.eng.completeOk s.eng.R)) :=
  exec_finish_of_enabled (s.sequencer_eq_finish.1 h)

/-! ### Where they stop (assumption logs 5, 6 and 7) -/

theorem Engine.updateEnabled_eq_false_iff (e : Engine) :
    e.updateEnabled = false ↔ e.BUSY = false ∨ sint32 e.LEN ≤ uint32 e.I := by
  simp [Engine.updateEnabled, or_iff_not_imp_left]

theorem Engine.finishEnabled_eq_false_iff (e : Engine) :
    e.finishEnabled = false ↔ e.BUSY = false ∨ (uint32 e.I : Int) ≠ sint32 e.LEN := by
  simp [Engine.finishEnabled, or_iff_not_imp_left]

theorem exec_update_of_not_enabled {s : State} (h : s.eng.updateEnabled = false) (b : Byte) :
    exec (.update b) s = .refused .microOpNotEnabled :=
  if_pos h

theorem exec_update_of_outside {s : State} (h : s.eng.updateEnabled = true)
    (hout : Config.addrSpace ≤ s.eng.readAddress) (b : Byte) : exec (.update b) s = .fault .readOutsideSpace := by
  simp [exec, execUpdate, h, hout]

theorem exec_update_of_not_admitted {s : State} (h : s.eng.updateEnabled = true)
    (hin : s.eng.readAddress < Config.addrSpace) (hadm : admits s.admission s.eng.readAddress = false) (b : Byte) :
    exec (.update b) s = .fault .readNotAdmitted := by
  simp [exec, execUpdate, h, hin.not_ge, hadm]

theorem exec_finish_of_not_enabled {s : State} (h : s.eng.finishEnabled = false) :
    exec .finish s = .refused .microOpNotEnabled :=
  if_pos h

/-! ### The state after each step of a transaction (41 R106) -/

/-- The parameters give a buffer of `n` bytes, inside the address space and admitted by the platform. -/
structure State.BufferReady (s : State) (n : Nat) : Prop where
  length : s.eng.LEN.toInt = n
  inSpace : s.eng.BASE.toNat + n ≤ 2 ^ 32
  admitted : BufferAdmitted s s.eng.BASE.toNat n

/-- The machine of `s` in a transaction over its buffer whose first `k` bytes are folded. -/
def State.withFolded (s : State) (k : Nat) : State :=
  s.setEng { s.eng with
    R := crc8 s.rom (bufferBytes s.mem s.eng.BASE.toNat k), I := BitVec.ofNat 32 k
    BUSY := true, DONE := false, ERR := 0x0#4, RESULT := 0x00#8 }

/-- The accept folds nothing. -/
theorem State.BufferReady.eq_withFolded_zero {s s1 : State} {n : Nat} (h : s.BufferReady n)
    (hidle : s.eng.BUSY = false) (hpos : 0 < n) (hsize : n ≤ s.eng.SIZE.toNat)
    (hex : exec (.compute true) s = .next s1) : s1 = s.withFolded 0 := by
  have hlen := h.length
  have htop := h.inSpace
  have hstart := computeStartsTransaction s hidle (by omega) (by omega) (by omega)
  exact Host.Outcome.next.inj (hex.symm.trans hstart)

/-- The index counts up to LEN, which is below 2^31, and so is the number of bytes folded. -/
theorem State.BufferReady.toNat_I {s : State} {n k : Nat} (h : s.BufferReady n) (hk : k ≤ n) :
    (s.withFolded k).eng.I.toNat = k := by
  have hlt := BitVec.toInt_lt (x := s.eng.LEN)
  have hlen := h.length
  exact (BitVec.toNat_ofNat k 32).trans (Nat.mod_eq_of_lt (by omega))

/-- With every byte folded the index is LEN. -/
theorem State.BufferReady.ofNat_eq_LEN {s : State} {n : Nat} (h : s.BufferReady n) :
    BitVec.ofNat 32 n = s.eng.LEN := by
  rw [← BitVec.ofInt_natCast, ← h.length, BitVec.ofInt_toInt]

theorem State.BufferReady.readAddress_eq {s : State} {n k : Nat} (h : s.BufferReady n) (hk : k ≤ n) :
    (s.withFolded k).eng.readAddress = s.eng.BASE.toNat + k :=
  congrArg (s.eng.BASE.toNat + ·) (h.toNat_I hk)

/-- The bytes not yet folded are still to read. -/
theorem State.BufferReady.hasBytesToRead {s : State} {n k m : Nat} (h : s.BufferReady n) (hn : k + m = n) :
    (s.withFolded k).HasBytesToRead m := by
  have hk : k ≤ n := by omega
  have hspace := h.inSpace
  have haddr := h.readAddress_eq hk
  refine ⟨rfl, ?_, ?_, fun j hj => ?_⟩
  · rw [uint32, h.toNat_I hk]
    exact h.length.trans (by omega)
  · rw [haddr, Config.addrSpace]
    omega
  · rw [haddr, Nat.add_assoc]
    exact h.admitted (k + j) (by omega)

/-- The engine's step folds the next byte of the buffer. -/
theorem State.BufferReady.runEngine_eq {s : State} {n k : Nat} (h : s.BufferReady n) (hk : k < n) :
    runEngine (s.withFolded k) = .next (s.withFolded (k + 1)) := by
  obtain ⟨m, hm⟩ := Nat.exists_eq_add_of_lt hk
  have hbytes : (s.withFolded k).HasBytesToRead (m + 1) := h.hasBytesToRead hm.symm
  rw [hbytes.runEngine_eq, h.readAddress_eq hk.le]
  simp only [State.withFolded, bufferBytes_succ_last, crc8_append_singleton, BitVec.ofNat_add]
  rfl

/-- `k` steps fold the first `k` bytes (41 R106). -/
theorem State.BufferReady.run_folds {s : State} {n k : Nat} (h : s.BufferReady n) (hpin : s.resetPin = false)
    (hin : s.inputs = []) (hk : k ≤ n) (j : Nat) :
    Host.Core.run core (k + j) (s.withFolded 0) = Host.Core.run core j (s.withFolded k) := by
  induction k generalizing j with
  | zero => rw [Nat.zero_add]
  | succ k ih =>
    have hstep : step (s.withFolded k) = .next (s.withFolded (k + 1)) :=
      (step_of_no_inputs (s := s.withFolded k) hpin hin).trans (h.runEngine_eq hk)
    rw [Nat.add_assoc, Nat.add_comm 1 j, ih (Nat.le_of_succ_le hk), run_succ_of_step hstep]

/-! ### The instructions a transaction runs (41 R100, R114) -/

/-- A completing step of the engine runs at most one instruction, and the further steps run theirs after it. -/
theorem moveTrace_succ {s t : State} (h : runEngine s = .next t) (k : Nat) :
    moveTrace (k + 1) s = s.sequencer.toList ++ moveTrace k t := by
  simp only [moveTrace, h]

/-- Outside BUSY the engine runs nothing, however many steps it is given. -/
theorem moveTrace_of_not_busy {s : State} (h : s.eng.BUSY = false) (k : Nat) : moveTrace k s = [] := by
  have hseq := State.sequencer_of_not_busy h
  induction k with
  | zero => rfl
  | succ k ih => rw [moveTrace_succ (runEngine_of_sequencer_none hseq), ih, hseq, Option.toList_none, List.nil_append]

/-- With `m` bytes still to read, any number of steps that is enough for them and FINISH runs UPDATE of each, then
FINISH. -/
theorem State.HasBytesToRead.moveTrace_eq {s : State} {m : Nat} (h : s.HasBytesToRead m) (k : Nat) :
    moveTrace (m + 1 + k) s = (bufferBytes s.mem s.eng.readAddress m).map Instr.update ++ [.finish] := by
  induction m generalizing s with
  | zero =>
    rw [Nat.zero_add, Nat.add_comm, moveTrace_succ h.runEngine_zero, moveTrace_of_not_busy rfl, h.sequencer_zero]
    rfl
  | succ m ih =>
    obtain ⟨hrest, haddr⟩ := h.fold (s.mem.byte s.eng.readAddress)
    rw [Nat.add_right_comm (m + 1), moveTrace_succ h.runEngine_eq, ih hrest, haddr, h.sequencer_eq, bufferBytes_succ]
    rfl

/-! ### Two transactions over the same buffer (41 R108, R109) -/

/-- The addressed instances differ at most in their windows, and the two machines agree on the table and on each byte of
the buffer and its admission. Nothing is scheduled in either. -/
structure State.SameTransaction (s s' : State) : Prop where
  eng : s'.eng = { s.eng with window := s'.eng.window }
  rom : s'.rom = s.rom
  buffer : ∀ j : Nat, (j : Int) < sint32 s.eng.LEN →
    s.mem.byte (s.eng.BASE.toNat + j) = s'.mem.byte (s.eng.BASE.toNat + j) ∧
    admits s.admission (s.eng.BASE.toNat + j) = admits s'.admission (s.eng.BASE.toNat + j)
  unscheduled : s.resetPin = false ∧ s.inputs = []
  unscheduled' : s'.resetPin = false ∧ s'.inputs = []

/-- An accept gives the same instance, but for the window, wherever the parameters are the same. -/
theorem Engine.accept_congr {e f : Engine} (hbase : e.BASE = f.BASE) (hsize : e.SIZE = f.SIZE) (hlen : e.LEN = f.LEN)
    (bufv : Bool) : f.accept bufv = { e.accept bufv with window := (f.accept bufv).window } := by
  have hv : validate bufv f.BASE f.SIZE f.LEN = validate bufv e.BASE e.SIZE e.LEN := by rw [hbase, hsize, hlen]
  cases h : validate bufv e.BASE e.SIZE e.LEN with
  | err c => simp [Engine.accept_of_err h, Engine.accept_of_err (hv.trans h), hbase, hsize, hlen]
  | ok n =>
    rcases Nat.eq_zero_or_pos n with rfl | hn
    · simp [Engine.accept_of_zero h, Engine.accept_of_zero (hv.trans h), hbase, hsize, hlen]
    · simp [Engine.accept_of_pos hn h, Engine.accept_of_pos hn (hv.trans h), hbase, hsize, hlen]

/-- The same change of both instances, which leaves BASE and LEN alone, keeps the agreement. -/
theorem State.SameTransaction.setEng {s s' : State} (h : s.SameTransaction s') {e e' : Engine}
    (he : e' = { e with window := e'.window }) (hbase : e.BASE = s.eng.BASE) (hlen : e.LEN = s.eng.LEN) :
    (s.setEng e).SameTransaction (s'.setEng e') where
  eng := he
  rom := h.rom
  buffer := by
    simpa only [State.setEng_eng, State.setEng_mem, State.setEng_admission, hbase, hlen] using h.buffer
  unscheduled := h.unscheduled
  unscheduled' := h.unscheduled'

/-- The read of an enabled UPDATE lies in the buffer, so the two sequencers have the same step. -/
theorem State.SameTransaction.sequencer_eq {s s' : State} (h : s.SameTransaction s') :
    s'.sequencer = s.sequencer := by
  have hread : s.eng.updateEnabled = true → s'.memRead s.eng.readAddress = s.memRead s.eng.readAddress := fun hu => by
    obtain ⟨hbyte, hadm⟩ := h.buffer s.eng.I.toNat ((Engine.updateEnabled_iff _).1 hu).2
    refine Option.ext fun b => ?_
    rw [State.memRead_eq_some, State.memRead_eq_some, Engine.readAddress, uint32, uint32, hbyte, hadm]
  have hu : s'.eng.updateEnabled = s.eng.updateEnabled := by rw [h.eng]; rfl
  have hf : s'.eng.finishEnabled = s.eng.finishEnabled := by rw [h.eng]; rfl
  have ha : s'.eng.readAddress = s.eng.readAddress := by rw [h.eng]; rfl
  simp only [State.sequencer, hu, hf, ha]
  split_ifs with hen
  · rw [hread hen]
  · rfl
  · rfl

/-- Both engines take their step, and still agree. -/
theorem State.SameTransaction.step_next {s s' : State} (h : s.SameTransaction s') :
    ∃ t t', step s = .next t ∧ step s' = .next t' ∧ t.SameTransaction t' := by
  rw [step_of_no_inputs h.unscheduled.1 h.unscheduled.2, step_of_no_inputs h.unscheduled'.1 h.unscheduled'.2]
  cases hseq : s.sequencer with
  | none => exact ⟨s, s', runEngine_of_sequencer_none hseq, runEngine_of_sequencer_none (h.sequencer_eq.trans hseq), h⟩
  | some i =>
    have hseq' := h.sequencer_eq.trans hseq
    rw [runEngine_of_sequencer hseq, runEngine_of_sequencer hseq']
    rcases State.sequencer_cases hseq with ⟨b, rfl⟩ | rfl
    · refine ⟨_, _, exec_update_of_sequencer hseq, exec_update_of_sequencer hseq', h.setEng ?_ rfl rfl⟩
      rw [h.eng, h.rom]
      rfl
    · refine ⟨_, _, exec_finish_of_sequencer hseq, exec_finish_of_sequencer hseq', h.setEng ?_ rfl rfl⟩
      rw [h.eng]
      rfl

/-- However many steps both are given, they still agree. -/
theorem State.SameTransaction.run_next {s s' : State} (h : s.SameTransaction s') (k : Nat) :
    ∃ t t', Host.Core.run core k s = .next t ∧ Host.Core.run core k s' = .next t' ∧ t.SameTransaction t' := by
  induction k generalizing s s' with
  | zero => exact ⟨s, s', rfl, rfl, h⟩
  | succ k ih =>
    obtain ⟨u, u', hu, hu', hsame⟩ := h.step_next
    rw [run_succ_of_step hu, run_succ_of_step hu']
    exact ih hsame

/-- Machines that agree show the host the same STATUS and the same RESULT. -/
theorem State.SameTransaction.readReg_eq {s s' : State} (h : s.SameTransaction s') :
    s.eng.readReg .STATUS = s'.eng.readReg .STATUS ∧ s.eng.readReg .RESULT = s'.eng.readReg .RESULT := by
  rw [h.eng]
  exact ⟨rfl, rfl⟩

/-! ### The statements -/

/-- Settles O34: the first `k` steps each fold one byte. -/
theorem partialTransactionHoldsThePrefixFold : Obligations.PartialTransactionHoldsThePrefixFold := by
  intro s s1 n k hidle hpin hin hlen hpos hsize htop hadm h hk
  have hready : s.BufferReady n := ⟨hlen, htop, hadm⟩
  obtain rfl := hready.eq_withFolded_zero hidle hpos hsize h
  exact ⟨_, hready.run_folds hpin hin hk 0, rfl, hready.toNat_I hk, rfl, rfl⟩

/-- Settles O35: `n` steps fold the buffer, with BUSY throughout, and the next is FINISH. -/
theorem transactionComputesCrc : Obligations.TransactionComputesCrc := by
  intro s s1 n hidle hpin hin hlen hpos hsize htop hadm h
  have hready : s.BufferReady n := ⟨hlen, htop, hadm⟩
  obtain rfl := hready.eq_withFolded_zero hidle hpos hsize h
  refine ⟨?_, fun k t hk ht => ?_⟩
  · have hbytes := hready.hasBytesToRead (Nat.add_zero n)
    have hstep := (step_of_no_inputs (s := s.withFolded n) hpin hin).trans hbytes.runEngine_zero
    rw [hready.run_folds hpin hin le_rfl 1, run_succ_of_step hstep, ← hready.ofNat_eq_LEN]
    rfl
  · obtain rfl := Host.Outcome.next.inj ((hready.run_folds hpin hin hk 0).symm.trans ht)
    rfl

/-- Settles O37, by induction on the bytes still to read. -/
theorem sequencerProducesUpdatesThenFinish : Obligations.SequencerProducesUpdatesThenFinish := by
  intro s s1 n k hidle hlen hpos hsize htop hadm h
  obtain ⟨hbytes, haddr⟩ := State.hasBytesToRead_of_compute hidle hlen hpos hsize htop hadm h
  obtain rfl := eq_accept_of_exec_compute hidle h
  rw [hbytes.moveTrace_eq k, haddr]
  rfl

/-- Settles O39: the two transactions run in lockstep. -/
theorem outcomeDependsOnTheBufferAlone : Obligations.OutcomeDependsOnTheBufferAlone := by
  intro s s' s1 s1' bufv k hidle hidle' hpin hpin' hin hin' hbase hsize hlen hrom hbuf h h'
  obtain rfl := eq_accept_of_exec_compute hidle h
  obtain rfl := eq_accept_of_exec_compute hidle' h'
  obtain ⟨hB, -, hL, -⟩ := s.eng.accept_keeps bufv
  have hsame : State.SameTransaction (s.setEng (s.eng.accept bufv)) (s'.setEng (s'.eng.accept bufv)) := {
    eng := Engine.accept_congr hbase hsize hlen bufv
    rom := hrom.symm
    buffer := by simpa only [State.setEng_eng, State.setEng_mem, State.setEng_admission, hB, hL, sint32] using hbuf
    unscheduled := ⟨hpin, hin⟩
    unscheduled' := ⟨hpin', hin'⟩ }
  obtain ⟨t, t', ht, ht', hagree⟩ := hsame.run_next k
  exact ⟨t, t', ht, ht', hagree.readReg_eq⟩

/-- Settles O24: validation answers `Ok(0)`, so the accept completes, and outside BUSY nothing is read. -/
theorem lengthZeroCompletesAtAccept : Obligations.LengthZeroCompletesAtAccept := by
  refine ⟨fun _ => rfl, fun s bufv hidle hlen => ?_⟩
  have hok : validate bufv s.eng.BASE s.eng.SIZE s.eng.LEN = .ok 0 := by
    have hbase := s.eng.BASE.isLt
    refine (validate_eq_ok ..).2 ⟨by rw [hlen]; rfl, ?_⟩
    cases bufv with
    | false => exact .inl ⟨rfl, rfl⟩
    | true => exact .inr ⟨rfl, by omega, by simp only [uint32, Config.addrSpace]; omega⟩
  have hacc := Engine.accept_of_zero hok
  refine ⟨_, exec_compute_of_not_busy hidle bufv, ?_, fun k => readTrace_of_not_busy ?_ k⟩
  · rw [hacc]
    rfl
  · rw [hacc]
    rfl

/-- Settles O28: an accept runs INIT whatever validation answers. -/
theorem initClearsRemainderAndIndex : Obligations.InitClearsRemainderAndIndex :=
  ⟨rfl, fun _ => rfl, fun s bufv hidle => ⟨_, exec_compute_of_not_busy hidle bufv, s.eng.accept_R_I bufv⟩⟩

/-- Settles O29: each corner case is the index `b ^ R` at the values it names. -/
theorem updateFoldsOneByte : Obligations.UpdateFoldsOneByte := by
  refine ⟨decodeMicro_microWord_update, fun s b hbusy hmore hspace hadm => ?_, fun s hbusy hmore hspace => ⟨?_, ?_⟩⟩
  · have hready : s.UpdateReady := ⟨hbusy, hmore, hspace, hadm⟩
    have hself : b = s.eng.R → (s.eng.fold s.rom b).R = lookup s.rom 0x00#8 := fun hb => by
      rw [Engine.fold_R, hb, tableIndex_self]
    have hlast : s.eng.R = 0xC0#8 → b = 0x3F#8 → (s.eng.fold s.rom b).R = lookup s.rom 0xFF#8 := fun hR hb => by
      rw [Engine.fold_R, hR, hb]
      rfl
    refine ⟨_, hready.exec_update b, rfl, Engine.uint32_succ_I hmore, hself, fun hb => ?_, hlast, fun hT => ?_⟩
    · rw [State.setEng_eng, Engine.fold_R, hb, tableIndex_zero]
      rfl
    · obtain ⟨h0, -, h255⟩ := hT
      exact ⟨fun hb => (hself hb).trans h0, fun hR hb => (hlast hR hb).trans h255⟩
  · exact fun hadm => State.UpdateReady.sequencer_eq ⟨hbusy, hmore, hspace, hadm⟩
  · exact fun hadm => State.sequencer_of_not_admitted ((Engine.updateEnabled_iff _).2 ⟨hbusy, hmore⟩) hadm

/-- Settles O30: the stops are the branches of the two meanings. -/
theorem microOperationsStopWhereNotEnabled : Obligations.MicroOperationsStopWhereNotEnabled := by
  have henabled : ∀ s : State, s.eng.BUSY = true → s.eng.I.toNat < s.eng.LEN.toInt → s.eng.updateEnabled = true :=
    fun _ hbusy hmore => (Engine.updateEnabled_iff _).2 ⟨hbusy, hmore⟩
  refine ⟨fun s b h => ?_, fun s b hbusy hmore hout => ?_, fun s b hbusy hmore hspace hadm => ?_, fun s h => ?_⟩
  · exact exec_update_of_not_enabled (s.eng.updateEnabled_eq_false_iff.2 h) b
  · exact exec_update_of_outside (henabled s hbusy hmore) hout b
  · exact exec_update_of_not_admitted (henabled s hbusy hmore) hspace hadm b
  · exact exec_finish_of_not_enabled (s.eng.finishEnabled_eq_false_iff.2 h)

/-- Settles O31: FINISH is enabled exactly at I = LEN while BUSY, and there the invariant has LEN at least 1. -/
theorem finishPublishesRemainder : Obligations.FinishPublishesRemainder := by
  have hiff : ∀ s : State, s.sequencer = some .finish ↔ s.eng.BUSY = true ∧ (s.eng.I.toNat : Int) = s.eng.LEN.toInt :=
    fun s => s.sequencer_eq_finish.trans s.eng.finishEnabled_iff
  refine ⟨rfl, fun s hbusy hI => ?_, hiff, fun s hinv hseq hzero => ?_⟩
  · exact exec_finish_of_enabled (s.eng.finishEnabled_iff.2 ⟨hbusy, hI⟩)
  · obtain ⟨-, -, -, -, hpos, -⟩ := hinv.busy ((hiff s).1 hseq).1
    rw [hzero] at hpos
    exact absurd hpos (by decide)

/-- Settles O32: an empty schedule gives the sequencer the move. -/
theorem sequencerTakesItsOneEnabledStep : Obligations.SequencerTakesItsOneEnabledStep := by
  intro s hpin hin
  rw [step_of_no_inputs hpin hin]
  refine ⟨fun hbusy hmore hspace hadm => ?_, fun hbusy hI => ?_, fun hidle => ?_⟩
  · have hready : s.UpdateReady := ⟨hbusy, hmore, hspace, hadm⟩
    have hrun := runEngine_of_sequencer hready.sequencer_eq
    exact ⟨hrun, _, hrun.trans (hready.exec_update _)⟩
  · have hfin := s.eng.finishEnabled_iff.2 ⟨hbusy, hI⟩
    have hrun := runEngine_of_sequencer (s.sequencer_eq_finish.2 hfin)
    exact ⟨hrun, _, hrun.trans (exec_finish_of_enabled hfin)⟩
  · exact runEngine_of_sequencer_none (State.sequencer_of_not_busy hidle)

/-- Settles O33: at width 8 the index has all of R, and R shifted left by 8 has no bit left. -/
theorem generalUpdateFormReducesForWidthEight : Obligations.GeneralUpdateFormReducesForWidthEight := by
  intro s b hbusy hmore hspace hadm
  have hready : s.UpdateReady := ⟨hbusy, hmore, hspace, hadm⟩
  have hshift : BitVec.ofNat 8 (s.eng.R.toNat * 2 ^ 8) = 0x00#8 :=
    BitVec.eq_of_toNat_eq (by simp [BitVec.toNat_ofNat])
  refine ⟨_, hready.exec_update b, ?_⟩
  rw [hshift, BitVec.xor_zero]
  rfl

/-- Settles O41: the fold goes on from where it stands. -/
theorem checksumsDoNotChain : Obligations.ChecksumsDoNotChain := by
  refine ⟨crc8_append, fun T hT => ?_⟩
  obtain ⟨h0, h12, -⟩ := hT
  have hone : crc8 T [0x00#8] = 0x0C#8 := h0
  refine ⟨hone, ?_⟩
  rw [crc8_append_singleton, hone, tableIndex_zero, h12]

/-- Settles O42: the appended byte equals the remainder, so its index is 0. -/
theorem appendedRemainderGivesEntryZero : Obligations.AppendedRemainderGivesEntryZero := by
  have happend : ∀ (T : Table) (bs : List Byte), crc8 T (bs ++ [crc8 T bs]) = lookup T 0x00#8 := fun T bs => by
    rw [crc8_append_singleton, tableIndex_self]
  exact ⟨happend, fun T bs hT => (happend T bs).trans hT.1⟩

end Sys2Proof.Machine
end

section
/-! PROOFS. The errors' family (spec 60_exceptions): which instruction and which change of an instance can raise an error
code, the unadmitted read from which only reset leads out, and the spellings that are refused. -/

namespace Sys2Proof.Machine

/-! ### The code an accept leaves (60 R115, 40 R93) -/

/-- An accept leaves the code that validation answers, and 0x0 where it answers no error. -/
theorem Engine.accept_ERR (e : Engine) (bufv : Bool) :
    (∃ c, validate bufv e.BASE e.SIZE e.LEN = .err c ∧ (e.accept bufv).ERR = c.code) ∨
      (e.accept bufv).ERR = 0x0#4 := by
  cases h : validate bufv e.BASE e.SIZE e.LEN with
  | err c => exact .inl ⟨c, rfl, by rw [Engine.accept_of_err h]⟩
  | ok n =>
    rcases Nat.eq_zero_or_pos n with rfl | hn
    · rw [Engine.accept_of_zero h]; exact .inr rfl
    · rw [Engine.accept_of_pos hn h]; exact .inr rfl

/-- The numeric codes tell the two errors apart (60 R115). -/
theorem ErrCode.code_injective : Function.Injective ErrCode.code
  | .invalidLength, .invalidLength, _ => rfl
  | .nullBuffer, .nullBuffer, _ => rfl

/-- Validation answers InvalidLength in the three cases of 60 R116: a negative length, a length above SIZE, and a buffer
that leaves the address space. -/
theorem validate_eq_invalidLength_iff (bufv : Bool) (base size len : Word32) :
    validate bufv base size len = .err .invalidLength ↔
      len.toInt < 0 ∨ (bufv = true ∧ (size.toNat : Int) < len.toInt) ∨
      (bufv = true ∧ 0 ≤ len.toInt ∧ len.toInt ≤ size.toNat ∧ 2 ^ 32 < base.toNat + len.toInt) := by
  refine (validationDecidesByTheFirstCheck bufv base size len).1.trans ?_
  cases bufv
  · simp
  · simp only [true_and]
    omega

/-- A COMPUTE whose parameters validation rejects completes with the error, and changes nothing else (40 R96). -/
theorem exec_compute_eq_of_err {s : State} {bufv : Bool} {c : ErrCode} (hb : s.eng.BUSY = false)
    (h : validate bufv s.eng.BASE s.eng.SIZE s.eng.LEN = .err c) :
    exec (.compute bufv) s = .next { s with eng := { s.eng with
      R := 0x00#8, I := 0#32, RESULT := 0x00#8, ERR := c.code, BUSY := false, DONE := true } } := by
  rw [exec_compute_of_not_busy hb, Engine.accept_of_err h]
  rfl

/-! ### What can raise an error code (60 R116, R117, R124) -/

/-- A COMPUTE that raises a code is not ignored, and the code is the one validation answers. -/
theorem Engine.compute_raises {e : Engine} {bufv : Bool} (hne : (e.compute bufv).ERR ≠ e.ERR)
    (h0 : (e.compute bufv).ERR ≠ 0x0#4) :
    e.BUSY = false ∧ ∃ c, validate bufv e.BASE e.SIZE e.LEN = .err c ∧ (e.compute bufv).ERR = c.code := by
  cases hb : e.BUSY with
  | true => exact absurd (by simp [Engine.compute, hb]) hne
  | false =>
    rw [Engine.compute_of_not_busy hb] at h0 ⊢
    exact ⟨rfl, (e.accept_ERR bufv).resolve_right h0⟩

/-- A register access that issues no COMPUTE leaves ERR. -/
theorem exec_quiet_ERR {i : Instr} {s t : State} (hi : isRegisterAccess i = true) (hq : quietInstr i = true)
    (h : exec i s = .next t) : t.eng.ERR = s.eng.ERR := by
  obtain ⟨e, rd, hex, -, hparams⟩ := exec_access hi s
  obtain rfl := Host.Outcome.next.inj (hex.symm.trans h)
  exact (congrArg Engine.ERR (hparams hq) :)

/-- An instruction that raises a code is a COMPUTE, or the write to CTRL that issues it, outside BUSY, and the code is the
one validation answers. -/
theorem exec_raises {i : Instr} {s t : State} (h : exec i s = .next t) (hne : t.eng.ERR ≠ s.eng.ERR)
    (h0 : t.eng.ERR ≠ 0x0#4) :
    s.eng.BUSY = false ∧ ∃ bufv c,
      (i = .compute bufv ∨ ∃ w, i = .wrCtrl w ∧ decodeCommand w = .ok (.compute bufv)) ∧
      validate bufv s.eng.BASE s.eng.SIZE s.eng.LEN = .err c ∧ t.eng.ERR = c.code := by
  cases i with
  | rdCtrl | rdStatus | rdBase | rdSize | rdLen | rdResult | rdRsv => exact absurd (exec_quiet_ERR rfl rfl h) hne
  | wrStatus | wrBase | wrSize | wrLen | wrResult | wrRsv => exact absurd (exec_quiet_ERR rfl rfl h) hne
  | nop | init => cases h; exact absurd rfl hne
  | compute bufv =>
    cases h
    obtain ⟨hb, c, hv, hc⟩ := Engine.compute_raises hne h0
    exact ⟨hb, bufv, c, .inl rfl, hv, hc⟩
  | wrCtrl w =>
    have hex := execWrCtrl_eq w s
    rw [show execWrCtrl w s = .next t from h] at hex
    split at hex
    case isTrue hop =>
      cases hex
      obtain ⟨hb, c, hv, hc⟩ := Engine.compute_raises hne h0
      refine ⟨hb, cmdBufv w, c, .inr ⟨w, rfl, ?_⟩, hv, hc⟩
      rw [decodeCommand_eq, hop]
      rfl
    case isFalse => cases hex; exact absurd rfl hne
  | update b =>
    obtain ⟨-, -, -, rfl⟩ := execUpdate_eq_next.1 h
    exact absurd rfl hne
  | finish =>
    obtain ⟨-, rfl⟩ := execFinish_eq_next.1 h
    exact absurd rfl h0

/-- No change of an instance but an accept moves ERR: FINISH runs while BUSY, where ERR is 0x0 already (10_state R38). -/
theorem EngineChange.err_cases {T : Table} {ad : List Config.AdmitRange} {e f : Engine} (h : EngineChange T ad e f)
    (he : e.Inv) : f.ERR = e.ERR ∨ (e.BUSY = false ∧ ∃ bufv, f = e.accept bufv) := by
  cases h with
  | same | setBase | setSize | setLen | clear | fold => exact .inl rfl
  | accept bufv hb => exact .inr ⟨hb, bufv, rfl⟩
  | complete hf =>
    obtain ⟨hb, -⟩ := (Engine.finishEnabled_iff e).1 hf
    obtain ⟨-, hE, -⟩ := he.busy hb
    exact .inl hE.symm

/-! ### A read that is not admitted (60 R119) -/

/-- No change is open to an instance whose next read is not admitted. -/
theorem EngineChange.eq_of_not_admitted {T : Table} {ad : List Config.AdmitRange} {e f : Engine}
    (h : EngineChange T ad e f) (hu : e.updateEnabled = true) (hadm : admits ad e.readAddress = false) : f = e := by
  obtain ⟨hb, hlt⟩ := (Engine.updateEnabled_iff e).1 hu
  cases h with
  | same => rfl
  | setBase v hidle | setSize v hidle | setLen v hidle | accept bufv hidle => simp [hb] at hidle
  | clear hidle => simp [hb] at hidle
  | fold b _ _ hm => simp [hadm] at hm
  | complete hf =>
    obtain ⟨-, hI⟩ := (Engine.finishEnabled_iff e).1 hf
    exact absurd hI hlt.ne

/-- A reset step resets every instance where it stands (70 R132). -/
theorem step_reset_engines {s t : State} (h : step s = .next t) (hr : s.nextEvent.1 = .reset) :
    t.engines = s.engines.map Engine.applyReset := by
  obtain ⟨-, -, ⟨-, heng, -⟩ | ⟨a, v, hev, -⟩ | ⟨hne, -⟩⟩ := step_next h
  · exact heng
  · rw [hev] at hr; cases hr
  · exact absurd hr hne

/-- While BUSY an instance that meets the invariants shows the host neither DONE nor an error (10_state R30, R38). -/
theorem Engine.Inv.readReg_status_of_busy {e : Engine} (h : e.Inv) (hb : e.BUSY = true) :
    e.readReg .STATUS = 0x00000001#32 := by
  obtain ⟨hd, hE, -⟩ := h.busy hb
  rw [Engine.readReg, e.statusWord_eq, hb, hd, hE]
  rfl

/-! ### Spellings without a meaning (60 R120) -/

/-- The offset of a B word as a number: bits 36:32 (30 R63). -/
theorem toNat_busOff (w : BitVec 38) : (busOff w).toNat = w.toNat / 2 ^ 32 % 2 ^ 5 := by
  rw [busOff, BitVec.extractLsb'_toNat, Nat.shiftRight_eq_div_pow]

/-- The offset of a bus address as a number: bits 4:0. -/
theorem toNat_offsetOf (a : Addr) : (offsetOf a).toNat = a.toNat % 2 ^ 5 := by
  rw [offsetOf, BitVec.extractLsb'_toNat, Nat.shiftRight_zero]

/-- UOP as a number: bits 9:8 (30 R65). -/
theorem toNat_microUop (w : BitVec 10) : (microUop w).toNat = w.toNat / 2 ^ 8 % 2 ^ 2 := by
  rw [microUop, BitVec.extractLsb'_toNat, Nat.shiftRight_eq_div_pow]

theorem decodeRead_of_misaligned {off : BitVec 5} (h : off.toNat % 4 ≠ 0) :
    decodeRead off = .error .misalignedAccess := by
  unfold decodeRead
  split
  case h_9 => rfl
  all_goals omega

theorem decodeWrite_of_misaligned {off : BitVec 5} (h : off.toNat % 4 ≠ 0) (v : Word32) :
    decodeWrite off v = .error .misalignedAccess := by
  unfold decodeWrite
  split
  case h_9 => rfl
  all_goals omega

/-- A B word at an offset that is not a multiple of 4 is refused, read or write (20 R49, 30 R71). -/
theorem runAccess_of_misaligned {w : BitVec 38} (h : (busOff w).toNat % 4 ≠ 0) (s : State) :
    runAccess w s = .refused .regAccessOther := by
  have hd : decodeBus w = .error .misalignedAccess := by
    unfold decodeBus
    split
    · exact decodeWrite_of_misaligned h _
    · exact decodeRead_of_misaligned h
  simp [runAccess, hd]

/-- A bus access of another width is refused, wherever in its window it lies (20 R49). -/
theorem runBus_of_width {s s' : State} {r : BusRequest} (hf : s.focus (windowOf r.addr) = some s')
    (hbits : r.bits ≠ 32) : runBus r s = .refused .regAccessOther := by
  simp [runBus, hf, hbits]

/-- The U words of R120 are those the decoder refuses. -/
theorem decodeMicro_of_reserved {w : BitVec 10}
    (h : 0x300 ≤ w.toNat ∨ (0x000 < w.toNat ∧ w.toNat < 0x100) ∨ (0x200 < w.toNat ∧ w.toNat < 0x300)) :
    decodeMicro w = .error .reservedMicroOp := by
  rcases decodeMicro_cases w with ⟨rfl, -⟩ | ⟨hu, -⟩ | ⟨rfl, -⟩ | ⟨-, -, -, hd⟩
  · simp at h
  · have huop := toNat_microUop w
    rw [hu, BitVec.toNat_ofNat] at huop
    omega
  · simp at h
  · exact hd

/-- What the sequencer produces is well-formed, and spelled by a U word (30 R65). -/
theorem State.sequencer_wf_encode {s : State} {i : Instr} (h : s.sequencer = some i) :
    i.wf = true ∧ ∃ w, encode i = .microOp w := by
  rcases State.sequencer_cases h with ⟨b, rfl⟩ | rfl
  · exact ⟨rfl, _, rfl⟩
  · exact ⟨rfl, _, rfl⟩

/-! ### The statements -/

/-- Settles O52: of the changes an instance can undergo, only an accept moves ERR. -/
theorem errorsComeOnlyFromAccept : Obligations.ErrorsComeOnlyFromAccept := by
  intro s t k e h hr hinv hk
  obtain ⟨f, hf, hc⟩ := step_engine_change h hr hk
  refine ⟨f, hf, fun hne => ?_⟩
  obtain ⟨hb, bufv, rfl⟩ := (hc.err_cases hinv).resolve_left hne
  exact ⟨hb, bufv, rfl, e.accept_ERR bufv⟩

/-- Settles O54: no change but a reset is open to the instance, and no step changes the admission. -/
theorem unadmittedReadIsStuckUntilReset : Obligations.UnadmittedReadIsStuckUntilReset := by
  intro s t k e h hk ⟨hu, hadm⟩
  refine ⟨fun hr => ?_, fun hr => ?_, ?_, fun hinv => ?_⟩
  · obtain ⟨f, hf, hc⟩ := step_engine_change h hr hk
    obtain rfl := hc.eq_of_not_admitted hu hadm
    obtain ⟨-, hkeep, -⟩ := step_next h
    exact ⟨hf, hu, by rw [hkeep, hadm]⟩
  · rw [step_reset_engines h hr, List.getElem?_map, hk]
    rfl
  · rintro rfl
    exact State.sequencer_of_not_admitted hu hadm
  · exact hinv.readReg_status_of_busy ((Engine.updateEnabled_iff e).1 hu).1

/-- Settles O7: the decoders refuse the words of both kinds, and the sequencer's steps are well-formed. -/
theorem spellingsWithoutMeaningAreRefused : Obligations.SpellingsWithoutMeaningAreRefused := by
  refine ⟨fun s s' r rest hp hin hf hbad => ?_, fun s w rest hp hin hoff => ?_, fun s w rest hp hin hw => ?_,
    fun s i hs => ?_⟩
  · by_cases hbits : r.bits = 32
    · have haddr : r.addr.toNat % 4 ≠ 0 := hbad.resolve_left (not_not_intro hbits)
      rw [step_bus hp hin hbits hf]
      refine runAccess_of_misaligned ?_ s'
      rw [busOff_busWord, toNat_offsetOf]
      omega
    · exact (step_of_inputs hp hin).trans (runBus_of_width hf hbits)
  · refine (step_of_inputs hp hin).trans (runAccess_of_misaligned ?_ _)
    rw [toNat_busOff]
    omega
  · rw [step_of_inputs hp hin, runEvent, runMicro, decodeMicro_of_reserved hw]
  · obtain ⟨hwf, w, hw⟩ := State.sequencer_wf_encode hs
    exact ⟨w, hw, hw ▸ decode_encode hwf⟩

/-- Settles O22: validation answers InvalidLength exactly in the three cases, and only an accept raises a code. -/
theorem computeReportsInvalidLength : Obligations.ComputeReportsInvalidLength := by
  refine ⟨fun s bufv hb hcase => ?_, fun i s t h hne h1 => ?_⟩
  · exact exec_compute_eq_of_err hb ((validate_eq_invalidLength_iff ..).2 hcase)
  · obtain ⟨hb, bufv, c, hi, hv, hc⟩ := exec_raises h hne (by simp [h1])
    obtain rfl : c = .invalidLength := ErrCode.code_injective (hc.symm.trans h1)
    exact ⟨hb, bufv, hi, (validate_eq_invalidLength_iff ..).1 hv⟩

/-- Settles O23: without a buffer, validation answers by the sign of LEN, and only an accept raises a code. -/
theorem computeReportsNullBuffer : Obligations.ComputeReportsNullBuffer := by
  refine ⟨fun s hb => ⟨fun hpos => ?_, fun hzero => ?_, fun hneg => ?_⟩, fun i s t h hne h2 => ?_⟩
  · exact exec_compute_eq_of_err hb ((validate_eq_nullBuffer ..).2 ⟨rfl, hpos⟩)
  · have hok : validate false s.eng.BASE s.eng.SIZE s.eng.LEN = .ok 0 := (validate_eq_ok ..).2 ⟨hzero, .inl ⟨rfl, rfl⟩⟩
    rw [exec_compute_of_not_busy hb, Engine.accept_of_zero hok]
    rfl
  · exact ⟨_, exec_compute_eq_of_err hb ((validate_eq_invalidLength_iff ..).2 (.inl hneg)), rfl, rfl⟩
  · obtain ⟨hb, bufv, c, hi, hv, hc⟩ := exec_raises h hne (by simp [h2])
    obtain rfl : c = .nullBuffer := ErrCode.code_injective (hc.symm.trans h2)
    obtain ⟨rfl, hpos⟩ := (validate_eq_nullBuffer ..).1 hv
    exact ⟨hb, hpos, hi⟩

end Sys2Proof.Machine
end

section
/-! PROOFS. The reset and hazards family (spec 70_reset_and_hazards): what the reset move does and that it goes before
every other, a COMPUTE straight after it, and that an outcome stays for the host to read until the next accept. -/

namespace Sys2Proof.Machine

/-! ### The reset move (70 R132) -/

/-- Whichever move comes next, reset is no longer asserted when it runs (assumption log 15). -/
@[simp] theorem State.nextEvent_resetPin (s : State) : s.nextEvent.2.resetPin = false := by
  cases hp : s.resetPin with
  | true => simp [State.nextEvent, hp]
  | false => cases hi : s.inputs <;> simp [State.nextEvent, hp, hi]

/-- An asserted reset is the next move, and every other move stays scheduled (assumption log 15). -/
theorem State.nextEvent_of_resetPin {s : State} (hp : s.resetPin = true) :
    s.nextEvent = (.reset, { s with resetPin := false }) := by
  simp [State.nextEvent, hp]

/-- Reset comes next where it is asserted or scheduled first. -/
theorem State.nextEvent_fst_eq_reset {s : State} (h : s.resetPin = true ∨ ∃ rest, s.inputs = .reset :: rest) :
    s.nextEvent.1 = .reset := by
  cases hp : s.resetPin with
  | true => rw [State.nextEvent_of_resetPin hp]
  | false =>
    obtain ⟨rest, hin⟩ := h.resolve_left (by simp [hp])
    simp [State.nextEvent, hp, hin]

/-- The step whose move is reset resets the state and completes. -/
theorem step_of_reset {s : State} (h : s.nextEvent.1 = .reset) : step s = .next s.nextEvent.2.applyReset := by
  rw [step, h]
  rfl

/-- An instance right after reset shows STATUS 0. -/
theorem Engine.applyReset_readReg_status (e : Engine) : e.applyReset.readReg .STATUS = 0#32 := by
  simp [Engine.readReg, Engine.statusWord, zext32]

/-! ### An outcome waiting to be read (10_state R21, 70 R139) -/

/-- Outside BUSY only an accept moves the outcome: FINISH is not enabled, and every other change is to a parameter, the
remainder or the index. -/
theorem EngineChange.outcome_cases_of_not_busy {T : Table} {ad : List Config.AdmitRange} {e f : Engine}
    (h : EngineChange T ad e f) (hb : e.BUSY = false) :
    (f.RESULT = e.RESULT ∧ f.ERR = e.ERR ∧ f.DONE = e.DONE ∧ f.BUSY = e.BUSY) ∨ ∃ bufv, f = e.accept bufv := by
  cases h with
  | same | setBase | setSize | setLen | clear | fold => exact .inl ⟨rfl, rfl, rfl, rfl⟩
  | accept bufv => exact .inr ⟨bufv, rfl⟩
  | complete hf =>
    obtain ⟨hbusy, -⟩ := (Engine.finishEnabled_iff e).1 hf
    simp [hb] at hbusy

/-! ### The statements -/

/-- Settles O53, by what a change can do to an instance that is not BUSY. -/
theorem outcomeStaysUntilTheNextAccept : Obligations.OutcomeStaysUntilTheNextAccept := by
  intro s t k e h hr hk hb hd
  obtain ⟨f, hf, hc⟩ := step_engine_change h hr hk
  have hcases := hc.outcome_cases_of_not_busy hb
  rw [hb, hd] at hcases
  exact ⟨f, hf, hcases⟩

/-- Settles O55: the step is the reset move's, which puts every instance at its reset value where it stands. -/
theorem resetTakesPrecedenceAndClearsEveryInstance : Obligations.ResetTakesPrecedenceAndClearsEveryInstance := by
  intro s h
  have hstep := step_of_reset (State.nextEvent_fst_eq_reset h)
  have hengines := step_reset_engines hstep (State.nextEvent_fst_eq_reset h)
  refine ⟨_, hstep, ?_, by rw [hengines, List.length_map], s.nextEvent_rom, s.nextEvent_mem, s.nextEvent_admission,
    s.nextEvent_resetPin, fun hp => ?_⟩
  · rw [hengines, List.forall_mem_map]
    exact fun e _ => ⟨rfl, rfl, rfl, rfl, rfl, rfl, rfl, rfl, rfl, e.applyReset_readReg_status⟩
  · rw [State.nextEvent_of_resetPin hp]
    rfl

/-- Settles O57: after reset the instance is not BUSY and LEN is 0, the case of O24. -/
theorem computeStraightAfterResetSucceeds : Obligations.ComputeStraightAfterResetSucceeds := by
  intro s bufv
  obtain ⟨-, hzero⟩ := lengthZeroCompletesAtAccept
  obtain ⟨t, hexec, rfl, -⟩ := hzero s.applyReset bufv rfl rfl
  exact ⟨_, hexec, rfl, rfl, rfl, rfl, rfl⟩

end Sys2Proof.Machine
end
